-- ==== Sys2Proof/Word.lean ====
section
/-! DEFINITION. The word types of the block (10_state.md R20, 00_scope.md R10, R11). -/

namespace Sys2Proof

/-- Every datapath value is an unsigned 32-bit word; arithmetic on it wraps modulo 2^32 (R10). -/
abbrev Word := BitVec 32

/-- A value of the position counter: `POS_WIDTH` = 64 bits, wrapping modulo 2^64 (R9, R27; log 8). -/
abbrev Position := BitVec 64

/-- A 624-word array, all of whose words hold a value: what the datapath functions take and give (R21). -/
abbrev WordArray := Vector Word 624

end Sys2Proof
end

