-- ==== Sys2Proof/Syntax.lean ====
section
/-! DEFINITION. The command interface: what the host sends (R52), and the six commands of the opcode table (R54). -/

namespace Sys2Proof

/-- A command as the block receives it: the pair `(W, D)` of a 32-bit command word and a counted sequence of 32-bit
operand words, seen whole before the block acts (R52). -/
structure Command where
  word     : Word
  operands : List Word
  deriving DecidableEq, Repr

/-- The six commands, one constructor per row of the opcode table (R54). The operand count of every command but RESTORE
is fixed by its constructor; RESTORE takes any count and checks it itself (R60, R96). -/
inductive Instr where
  | seed (s : Word)               -- SEED, R69
  | seedDef                       -- SEEDDEF, R72
  | next                          -- NEXT, R87
  | save                          -- SAVE, R93
  | restore (image : List Word)   -- RESTORE, R96
  | pos                           -- POS, R100
  deriving DecidableEq, Repr

/-- Why decode ends a command (R58): the word is none of the six (R59), or the operand count is wrong (R60). -/
inductive DecodeError where
  | reservedOp
  | badOperand
  deriving DecidableEq, Repr

end Sys2Proof
end

