-- ==== Sys2Proof/WellFormed.lean ====
section
/-! DEFINITION. Which commands are well formed: the three checks of R58, written over the numbers of R54's table and
not over the decoder's fields. A term of `Instr` needs no check of its own: each constructor carries exactly the
operands its row of R54 gives it, and RESTORE is defined at every operand count (R96, R97). -/

namespace Sys2Proof

/-- The reserved field of the command word is 0 (R53, R59). -/
def Command.reservedClear (c : Command) : Bool := c.word.toNat / 8 == 0

/-- The operation code is one of the six assigned ones (R54). -/
def Command.opAssigned (c : Command) : Bool := c.word.toNat % 8 < 6

/-- The operand count is the one R54 gives: one for SEED, any for RESTORE, none for the others (R60). -/
def Command.countFits (c : Command) : Bool :=
  match c.word.toNat % 8 with
  | 0 => c.operands.length == 1
  | 4 => true
  | _ => c.operands.length == 0

/-- A command that decodes to one of the six (R58). -/
def Command.wf (c : Command) : Bool := c.reservedClear && c.opAssigned && c.countFits

end Sys2Proof
end

