-- ==== Sys2Proof/Decode.lean ====
section
/-! DEFINITION. Decode, total on every `(W, D)` (R58), and the encoder from the opcode map (R54). -/

namespace Sys2Proof

/-- `OP` = `W[2:0]` (R53). -/
def Command.op (c : Command) : BitVec 3 := c.word.extractLsb' 0 3

/-- `RSVD` = `W[31:3]` (R53). -/
def Command.rsvd (c : Command) : BitVec 29 := c.word.extractLsb' 3 29

/-- The expected operand count of the operation codes other than RESTORE's (R58). -/
def expectedLen (op : BitVec 3) : Nat := if op = 0b000#3 then 1 else 0

/-- The command an assigned operation code selects, its operands assembled (R58, R61). SEED is reached only with one
operand word, its seed. -/
def selectInstr (op : BitVec 3) (D : List Word) : Instr :=
  if op = 0b000#3 then .seed (D.headD 0#32)
  else if op = 0b001#3 then .seedDef
  else if op = 0b010#3 then .next
  else if op = 0b011#3 then .save
  else if op = 0b100#3 then .restore D
  else .pos

/-- Decode (R58): the checks in the order of R58 and R113, the first that fails ends the command. -/
def decode (c : Command) : Except DecodeError Instr :=
  if c.rsvd ≠ 0#29 then .error .reservedOp
  else if c.op = 0b110#3 ∨ c.op = 0b111#3 then .error .reservedOp
  else if c.op ≠ 0b100#3 ∧ c.operands.length ≠ expectedLen c.op then .error .badOperand
  else .ok (selectInstr c.op c.operands)

/-- The command word and operand words of each command (R54, R63). -/
def encode : Instr → Command
  | .seed s    => ⟨0x00000000#32, [s]⟩
  | .seedDef   => ⟨0x00000001#32, []⟩
  | .next      => ⟨0x00000002#32, []⟩
  | .save      => ⟨0x00000003#32, []⟩
  | .restore D => ⟨0x00000004#32, D⟩
  | .pos       => ⟨0x00000005#32, []⟩

/-- How many operand words a command of the opcode table is followed by (R54): RESTORE's image has 627 words. -/
def tableOperandCount (op : BitVec 3) : Nat := if op = 0b100#3 then 627 else expectedLen op

/-- The transaction whose bits are `w`, bit 0 the least significant bit of the command word and operand words counted on
from it; all bits at or above `nbits` are 0, and the transaction has at least the operand words of its row (DESIGN
CHOICE, log 12). -/
def tableCommand (nbits w : Nat) : Command :=
  let v := w % 2 ^ nbits
  let W : Word := BitVec.ofNat 32 v
  let given := (nbits + 31) / 32 - 1
  let count := max given (tableOperandCount (W.extractLsb' 0 3))
  ⟨W, (List.range count).map fun j => BitVec.ofNat 32 (v >>> (32 * (j + 1)))⟩

/-- What the decoder reads from an instruction whose bits are `w` (the host's interface). -/
def decodeTableWord (nbits w : Nat) : Option Instr :=
  match decode (tableCommand nbits w) with
  | .ok i    => some i
  | .error _ => none

end Sys2Proof
end

