-- ==== Sys2Proof/Machine/Constants.lean ====
section
/-! DEFINITION. The sixteen algorithm constants, wired in and not parameters (R8). -/

namespace Sys2Proof.Machine

/-- Words in the state array. -/
abbrev N : Nat := 624
/-- Twist offset. -/
abbrev M : Nat := 397
/-- First twist range bound. -/
abbrev nMinusM : Nat := 227
/-- Twist matrix word. -/
def matrixA : Word := 0x9908B0DF#32
/-- Upper bit of a word. -/
def upperMask : Word := 0x80000000#32
/-- Lower 31 bits. -/
def lowerMask : Word := 0x7FFFFFFF#32
/-- Seeding multiplier. -/
def initMult : Word := 0x6C078965#32
/-- Seeding right shift. -/
def initShift : Nat := 30
/-- Tempering shift 1, right. -/
def temperU : Nat := 11
/-- Tempering shift 2, left. -/
def temperS : Nat := 7
/-- Tempering mask 2. -/
def temperB : Word := 0x9D2C5680#32
/-- Tempering shift 3, left. -/
def temperT : Nat := 15
/-- Tempering mask 3. -/
def temperC : Word := 0xEFC60000#32
/-- Tempering shift 4, right. -/
def temperL : Nat := 18
/-- The seed of SEEDDEF and of lazy seeding, 4537 and not the reference's 5489 (R73). -/
def defaultSeed : Word := 4537#32
/-- The value of `IDX` that means "never seeded", N + 1. -/
def sentinel : Word := 625#32
/-- The value of `IDX` a seed leaves, so that the first NEXT twists: N (R69, 90_conflicts.md C1). -/
def seededIdx : Word := 624#32

end Sys2Proof.Machine
end

