-- ==== Sys2Proof/Machine/Flags.lean ====
section
/-! DEFINITION. The block has no flags: its conditions are read off `IDX` (R33, R86). These are NEXT's two tests. -/

namespace Sys2Proof.Machine

/-- `IDX == 625`: the block was never seeded (R87 step 1). -/
def neverSeeded (idx : Word) : Bool := idx == sentinel

/-- `IDX >= 624`, an unsigned compare: no word is left, so NEXT twists (R87 step 2). -/
def noWordLeft (idx : Word) : Bool := N ≤ idx.toNat

end Sys2Proof.Machine
end

