-- ==== Sys2Proof/Config.lean ====
section
/-! DEFINITION. What the spec leaves open. `IDX_WIDTH`, `POS_WIDTH` and the array length are fixed by the types of
Word.lean (R9, R21); `INSTANCES` is the parameter of Machine/System.lean; `LATENCY` and `IMAGE_BYTE_ORDER` are outside
the model (R7, R40). The sixteen wired constants of R8 are in Machine/Constants.lean. -/

namespace Sys2Proof

/-- `Config.freeWord source k` is what the `k`-th read of an unwritten state word from the source `source` returns: "any
32-bit value, chosen afresh at each read" (R36, decision D14). DESIGN CHOICE of form (log 3): a constant with no body, so
that nothing can be proved of a value of it, nor of how two of its values are related; a claim that holds of it holds of
every choice. Safe. Which block reads from which source is the model's choice (log 15). -/
opaque Config.freeWord (source k : Nat) : Word

end Sys2Proof
end

