-- ==== Sys2Proof/Machine/State.lean ====
section
/-! DEFINITION. The state of one block: the three pieces of architectural state (R20), and the interface through which
the host reaches them (R52, R56, R126, R134). -/

namespace Sys2Proof.Machine

/-- The architectural state, "exactly three things" (R20). A word of `mt` is `none` while nothing has written it since
reset (R36): that is the spec's own state, and reading such a word is never a fault but a free value (DESIGN CHOICE of
form, log 3). -/
structure GenState where
  mt  : Vector (Option Word) 624
  idx : Word
  pos : Position
  deriving DecidableEq, Repr

/-- The condition a response's status code names (R57). -/
inductive Status where
  | ok             -- the command took effect
  | invalidState   -- a RESTORE image of the wrong length (R96)
  | reservedOp     -- the command word is not one of the six (R59)
  | badOperand     -- a wrong operand count, not RESTORE's (R60)
  deriving DecidableEq, Repr

/-- A response: a status code and result words (R56). -/
structure Response where
  status : Status
  words  : List Word
  deriving DecidableEq, Repr

/-- What the outside world does to one block. -/
inductive PortEvent where
  /-- A command presented while the port is free (R52, R133). -/
  | command (c : Command)
  /-- `c'` is presented while `c` is still in progress, which breaks the host protocol (R134; form: DESIGN CHOICE, log
  5). -/
  | overlap (c c' : Command)
  /-- Reset, at power-up or when the system asserts it, no command being in progress (R126, R122). -/
  | reset
  /-- Reset asserted while `c` is in progress (R127; form: DESIGN CHOICE, log 6). -/
  | resetDuring (c : Command)
  deriving DecidableEq, Repr

/-- Which free value the next read of an unwritten word returns: the `taken`-th of the source `source`. This is the
model's own bookkeeping and no state of the spec (log 3). Two blocks with equal `source` and `taken` read equal words, a
relation the spec leaves open (R31, R36; DESIGN CHOICE, log 15); blocks with different sources read unrelated ones. -/
structure Draws where
  source : Nat
  taken  : Nat
  deriving DecidableEq, Repr

/-- One block with its port. `port` holds the host's events not yet taken, the next one first (DESIGN CHOICE, log 1);
`sent` the responses sent, oldest first (DESIGN CHOICE, log 2); `draws` only numbers the free values of
`Config.freeWord` that reads of unwritten words return (log 3, log 15). -/
structure State where
  gen   : GenState
  port  : List PortEvent
  sent  : List Response
  draws : Draws
  deriving DecidableEq, Repr

/-- Why the machine stops with a fault. -/
inductive Fault where
  /-- Raised by the step on a command presented while another is in progress: "A model records such a command as a fault
  (`ProtocolViolation`)" (R134, U2). Safe: the spec leaves undefined what the block does then. -/
  | protocolViolation
  deriving DecidableEq, Repr

/-- Why an instruction has no meaning. -/
inductive Refusal where
  /-- Raised by an arm of `exec` whose instruction is not modelled; no arm raises it in this model. Safe. -/
  | notModelled (mnemonic : String)
  deriving DecidableEq, Repr

/-- The architectural state reset leaves: "never seeded" (R36, R126): every word unwritten, `IDX` the sentinel 625,
`POS` 0. -/
def GenState.reset : GenState where
  mt  := ⟨⟨List.replicate 624 none⟩, List.length_replicate⟩
  idx := 625#32
  pos := 0#64

/-- The machine right after reset (R126), with no event at its port and no response sent (DESIGN CHOICE, log 1, log 2).
`draws` starts source 0 (DESIGN CHOICE, log 3); blocks of one system get a source each in `System.reset` (log 15). -/
def State.reset : State where
  gen   := GenState.reset
  port  := []
  sent  := []
  draws := ⟨0, 0⟩

end Sys2Proof.Machine
end

