-- ==== Sys2Proof/Machine/Ops.lean ====
section
/-! DEFINITION. The named operations over the block's state: reading and writing the array, the cursor and the position
counter, and ending a command with a response (R13). -/

namespace Sys2Proof.Machine

/-- An array all of whose words have been written. -/
def written (A : WordArray) : Vector (Option Word) 624 := ⟨⟨A.toList.map some⟩, by simp⟩

/-- The next free value (R36). -/
def Draws.word (d : Draws) : Word := Config.freeWord d.source d.taken

/-- The bookkeeping after `n` further reads of unwritten words. -/
def Draws.advance (d : Draws) (n : Nat) : Draws := { d with taken := d.taken + n }

/-- The words a read of `l` returns, the free values counted from `d` on: a written word is itself, an unwritten one a
draw (R36). That two blocks share their free values exactly where they share the source is the model's choice: the spec
says neither that they are equal nor that they differ (R31; DESIGN CHOICE, log 15). -/
def readWords : List (Option Word) → Draws → List Word
  | [], _ => []
  | some w :: l, d => w :: readWords l d
  | none :: l, d => d.word :: readWords l (d.advance 1)

/-- How many words of `l` are unwritten: how many draws a read of `l` takes. -/
def unwrittenCount : List (Option Word) → Nat
  | [] => 0
  | some _ :: l => unwrittenCount l
  | none :: l => unwrittenCount l + 1

theorem readWords_length (l : List (Option Word)) (d : Draws) : (readWords l d).length = l.length := by
  induction l generalizing d with
  | nil => rfl
  | cons o l ih => cases o <;> simp [readWords, ih]

/-- Read the whole array (R93; R87 step 2): its words, and the state after the draws the read took.
The draws come from the block's own source (R36, R94; DESIGN CHOICE, log 15). -/
def State.readArray (s : State) : WordArray × State :=
  (⟨⟨readWords s.gen.mt.toList s.draws⟩, by simp [readWords_length]⟩,
    { s with draws := s.draws.advance (unwrittenCount s.gen.mt.toList) })

/-- Read word `i` (R87 step 3): a written word is itself, an unwritten one a draw (R36). NEXT is the only caller, with
`i` below 624. -/
def State.readWord (s : State) (i : Nat) : Word × State :=
  match (s.gen.mt[i]?).join with
  | some w => (w, s)
  | none   => (s.draws.word, { s with draws := s.draws.advance 1 })

/-- Write the whole array (R22). -/
def State.writeArray (s : State) (A : WordArray) : State := { s with gen := { s.gen with mt := written A } }

/-- Write the cursor. -/
def State.writeIdx (s : State) (i : Word) : State := { s with gen := { s.gen with idx := i } }

/-- Write the position counter. -/
def State.writePos (s : State) (p : Position) : State := { s with gen := { s.gen with pos := p } }

/-- `respond(status, words)`: end a command and send its response (R13, R56). -/
def State.respond (s : State) (st : Status) (words : List Word) : State := { s with sent := s.sent ++ [⟨st, words⟩] }

/-- `raise <Error>()` (R13, R111): every error is detected before the command writes any state, so the state stays and
the error's status is sent with no result words. This is all an error does: there is no trap entry (R107) and no
return (R115). -/
def State.raise (s : State) (e : Status) : State := s.respond e []

/-- Apply reset to the block (R126): the architectural state becomes the reset state, and no response is sent. -/
def State.applyReset (s : State) : State := { s with gen := GenState.reset }

/-- The status code `ST` of 2 bits (R57). -/
def Status.code : Status → BitVec 2
  | .ok           => 0
  | .invalidState => 1
  | .reservedOp   => 2
  | .badOperand   => 3

/-- The status with which decode's error is answered (R58). -/
def errorStatus : DecodeError → Status
  | .reservedOp => .reservedOp
  | .badOperand => .badOperand

end Sys2Proof.Machine
end

