-- ==== Sys2Proof/Machine/Seeding.lean ====
section
/-! DEFINITION. The seeding datapath (R66 to R68), and SEED (R69) and SEEDDEF (R72). -/

namespace Sys2Proof.Machine

/-- One word of the seeding recurrence: `INIT_MULT * (A[i-1] ^ (A[i-1] >> 30)) + i` modulo 2^32 (R67). -/
def seedNext (before : Word) (i : Nat) : Word :=
  initMult * (before ^^^ (before >>> initShift)) + BitVec.ofNat 32 i

/-- The `k` words of the recurrence from index `i` on, `before` the word just before them (R67). -/
def seedFrom (before : Word) (i : Nat) : Nat → List Word
  | 0     => []
  | k + 1 => seedNext before i :: seedFrom (seedNext before i) (i + 1) k

theorem seedFrom_length (before : Word) (i k : Nat) : (seedFrom before i k).length = k := by
  induction k generalizing before i with
  | zero => rfl
  | succ k ih => simp [seedFrom, ih]

/-- `SEED_INIT(s)` (R67): word 0 is the seed, words 1 to 623 follow by the recurrence. -/
def seedInit (s : Word) : WordArray := ⟨⟨s :: seedFrom s 1 623⟩, by simp [seedFrom_length]⟩

/-- The writes of a seed (R69), which SEED, SEEDDEF and lazy seeding share (R72, R74): the array, `IDX` = 624 so that
the first NEXT twists (90_conflicts.md C1), `POS` = 0. -/
def State.seedWith (s : State) (seed : Word) : State := ((s.writeArray (seedInit seed)).writeIdx seededIdx).writePos 0#64

/-- SEED: seed the generator with an explicit value; it always succeeds (R69). -/
def execSeed (seed : Word) (s : State) : Host.Outcome State Fault Refusal := .next ((s.seedWith seed).respond .ok [])

/-- SEEDDEF: seed the generator with the default seed 4537 (R72, R73). -/
def execSeedDef (s : State) : Host.Outcome State Fault Refusal := .next ((s.seedWith defaultSeed).respond .ok [])

end Sys2Proof.Machine
end

