-- ==== Sys2Proof/Machine/Draw.lean ====
section
/-! DEFINITION. The twist regenerator (R76, R77), the tempering unit (R83) and NEXT (R87). -/

namespace Sys2Proof.Machine

/-- The word a twist step computes from the word it replaces, the next word and the word `M` further on (R76). -/
def twistMix (here after far : Word) : Word :=
  let y := (here &&& upperMask) ||| (after &&& lowerMask)
  let mag := if y.getLsbD 0 then matrixA else 0#32
  far ^^^ (y >>> 1) ^^^ mag

/-- `TWIST_STEP(A, kk)`: rewrite word `kk` in place (R76). -/
def twistStep (A : WordArray) (kk : Fin 624) : WordArray :=
  A.set kk (twistMix A[kk]
    (A[(kk.val + 1) % N]'(Nat.mod_lt _ (by decide)))
    (A[(kk.val + M) % N]'(Nat.mod_lt _ (by decide))))

/-- The array after the steps 0 to `k - 1` of a twist, each reading the words the earlier ones rewrote (R77). -/
def twistUpto (A : WordArray) : Nat → WordArray
  | 0     => A
  | k + 1 => if h : k < 624 then twistStep (twistUpto A k) ⟨k, h⟩ else twistUpto A k

/-- `TWIST(A)`: the steps 0 to 623 in ascending order on one array, each reading what the earlier ones
rewrote (R77, decision D12). -/
def twist (A : WordArray) : WordArray := twistUpto A 624

/-- `TEMPER(y)`: four lines, each reading the value the line before it wrote (R83). -/
def temper (y : Word) : Word :=
  let y := y ^^^ (y >>> temperU)
  let y := y ^^^ ((y <<< temperS) &&& temperB)
  let y := y ^^^ ((y <<< temperT) &&& temperC)
  y ^^^ (y >>> temperL)

/-- NEXT step 1: a block that was never seeded is seeded with the default seed (R87, R74). -/
def State.seedIfNeverSeeded (s : State) : State := if neverSeeded s.gen.idx then s.seedWith defaultSeed else s

/-- `MT <- TWIST(MT); IDX <- 0` (R87 step 2). -/
def State.regenerate (s : State) : State :=
  let (A, s') := s.readArray
  (s'.writeArray (twist A)).writeIdx 0#32

/-- NEXT step 2: twist when no word is left (R87, R82). -/
def State.regenerateIfExhausted (s : State) : State := if noWordLeft s.gen.idx then s.regenerate else s

/-- NEXT steps 3 to 6: take the word at the cursor, advance the cursor and the position counter, and answer the
tempered word (R87). -/
def State.emit (s : State) : State :=
  let (y, s') := s.readWord s.gen.idx.toNat
  ((s'.writeIdx (s.gen.idx + 1#32)).writePos (s.gen.pos + 1#64)).respond .ok [temper y]

/-- NEXT: draw one 32-bit value; it always succeeds (R87). -/
def execNext (s : State) : Host.Outcome State Fault Refusal := .next s.seedIfNeverSeeded.regenerateIfExhausted.emit

end Sys2Proof.Machine
end

