-- ==== Sys2Proof/Machine/Operands.lean ====
section
/-! DEFINITION. Operand and result forms: the image of SAVE and RESTORE (R41, R61), and POS's two words (R100). -/

namespace Sys2Proof.Machine

/-- `POS[31:0]`. -/
def posLow (p : Position) : Word := p.extractLsb' 0 32

/-- `POS[63:32]`. -/
def posHigh (p : Position) : Word := p.extractLsb' 32 32

/-- `zext_64(hi) * 2^32 + zext_64(lo)` (R41). -/
def joinPos (lo hi : Word) : Position := hi.setWidth 64 * 0x100000000#64 + lo.setWidth 64

/-- `IMAGE(MT, IDX, POS)`: 627 words, the array in index order, the cursor, the position's low word, then its high word
(R41). -/
def image (A : WordArray) (idx : Word) (pos : Position) : List Word := A.toList ++ [idx, posLow pos, posHigh pos]

/-- The array an image of 627 words holds. -/
def imageArray (w : List Word) (h : w.length = 627) : WordArray := ⟨⟨w.take 624⟩, by simp [h]⟩

/-- `UNIMAGE(w)`: the array, the cursor and the position of an image, defined only for 627 words (R41). -/
def unimage (w : List Word) : Option (WordArray × Word × Position) :=
  if h : w.length = 627 then some (imageArray w h, w[624], joinPos w[625] w[626]) else none

end Sys2Proof.Machine
end

