-- ==== Sys2Proof/Machine/Snapshot.lean ====
section
/-! DEFINITION. State capture and restore: SAVE (R93) and RESTORE (R96); the position accessor: POS (R100). -/

namespace Sys2Proof.Machine

/-- SAVE: answer the image of the whole state; no architectural state is written (R93). Its reads of unwritten words are
draws (R94). -/
def execSave (s : State) : Host.Outcome State Fault Refusal :=
  let (A, s') := s.readArray
  .next (s'.respond .ok (image A s.gen.idx s.gen.pos))

/-- RESTORE: overwrite the whole state from an image of 627 words, values unchecked; at every other count answer
INVALID_STATE and write nothing (R96, R97). -/
def execRestore (img : List Word) (s : State) : Host.Outcome State Fault Refusal :=
  match unimage img with
  | none               => .next (s.raise .invalidState)
  | some (A, idx, pos) => .next ((((s.writeArray A).writeIdx idx).writePos pos).respond .ok [])

/-- POS: answer the position counter, low word first (R100). -/
def execPos (s : State) : Host.Outcome State Fault Refusal :=
  .next (s.respond .ok [posLow s.gen.pos, posHigh s.gen.pos])

end Sys2Proof.Machine
end

