-- ==== Sys2Proof/Machine/Dispatch.lean ====
section
/-! DEFINITION. The meaning of each command: one arm per constructor (R58). -/

namespace Sys2Proof.Machine

def exec (i : Instr) (s : State) : Host.Outcome State Fault Refusal :=
  match i with
  | .seed w => Sys2Proof.Machine.execSeed w s
  | .seedDef => Sys2Proof.Machine.execSeedDef s
  | .next => Sys2Proof.Machine.execNext s
  | .save => Sys2Proof.Machine.execSave s
  | .restore img => Sys2Proof.Machine.execRestore img s
  | .pos => Sys2Proof.Machine.execPos s

end Sys2Proof.Machine
end

