-- ==== Sys2Proof/Machine/Accept.lean ====
section
/-! DEFINITION. What the block does with one event at its port, and with a sequence of commands (R47, R58). -/

namespace Sys2Proof.Machine

/-- Accept one command: decode it and either run it or answer decode's error (R58). -/
def accept (c : Command) (s : State) : Host.Outcome State Fault Refusal :=
  match decode c with
  | .ok i    => exec i s
  | .error e => .next (s.raise (errorStatus e))

/-- Accept commands one at a time, in order (R47, R133). -/
def acceptAll : List Command → State → Host.Outcome State Fault Refusal
  | [], s => .next s
  | c :: cs, s =>
    match accept c s with
    | .next s'   => acceptAll cs s'
    | .fault r   => .fault r
    | .refused r => .refused r

/-- Take one event of the port. A reset, also one asserted during a command, leaves the reset state and sends no
response (R126, R127); a command presented while another is in progress is a protocol fault (R134). -/
def handle (e : PortEvent) (s : State) : Host.Outcome State Fault Refusal :=
  match e with
  | .command c     => accept c s
  | .overlap _ _   => .fault .protocolViolation
  | .reset         => .next s.applyReset
  | .resetDuring _ => .next s.applyReset

end Sys2Proof.Machine
end

