-- ==== Sys2Proof/Machine/Step.lean ====
section
/-! DEFINITION. One step of the block: it takes the next event at its port; with none it holds its state (R15, R122). -/

namespace Sys2Proof.Machine

/-- One step. With no event at the port the block does nothing: it is reactive and holds its state (R122; DESIGN CHOICE,
log 4). -/
def step (s : State) : Host.Outcome State Fault Refusal :=
  match s.port with
  | []        => .next s
  | e :: rest => handle e { s with port := rest }

/-- `s` with the command whose bits are `w` presented next at its port (DESIGN CHOICE, log 12). -/
def State.withFetchWord (s : State) (nbits w : Nat) : State :=
  { s with port := .command (tableCommand nbits w) :: s.port }

end Sys2Proof.Machine
end

