-- ==== Sys2Proof/Machine/Pseudo.lean ====
section
/-! DEFINITION. The host's pseudo-instructions over one block (R65); CLONE, over two, is in System.lean. -/

namespace Sys2Proof.Machine

/-- `DRAW n`: NEXT repeated `n` times (R65). -/
def drawCommands (n : Nat) : List Command := List.replicate n (encode .next)

/-- `POS64`: what the host makes of POS's two result words, `hi * 2^32 + lo` (R65). -/
def pos64 : List Word → Option Position
  | [lo, hi] => some (joinPos lo hi)
  | _        => none

end Sys2Proof.Machine
end

