-- ==== Sys2Proof/Machine/System.lean ====
section
/-! DEFINITION. Several instances (R123, R124): `n` is the parameter `INSTANCES`. Each has its own state, port and reset;
they share nothing. The host's CLONE over two of them (R103). -/

namespace Sys2Proof.Machine

/-- A system of `n` block instances (R123). Instances whose sources of free values differ read unrelated unwritten
words; instances with one source and equally many draws read equal ones (DESIGN CHOICE, log 15). -/
abbrev System (n : Nat) := Vector State n

/-- A system right after reset: every instance in its reset state (R126), reading unwritten words from a source of its
own, so that nothing relates the unwritten words of two instances (R36, R94; DESIGN CHOICE of form, log 15). -/
def System.reset (n : Nat) : System n := Vector.ofFn fun g => { State.reset with draws := ⟨g.val, 0⟩ }

/-- What the system becomes when one of its instances, `g`, ends in `o`: only that instance changes (R124). -/
def System.afterOne {n : Nat} (sys : System n) (g : Fin n) (o : Host.Outcome State Fault Refusal) :
    Host.Outcome (System n) Fault Refusal :=
  match o with
  | .next s    => .next (sys.set g s)
  | .fault r   => .fault r
  | .refused r => .refused r

/-- Instance `g` takes one step; the order in which instances step is open, so a claim holds for every order (R124;
DESIGN CHOICE, log 14). -/
def System.stepOne {n : Nat} (sys : System n) (g : Fin n) : Host.Outcome (System n) Fault Refusal :=
  sys.afterOne g (step sys[g])

/-- Instance `g` accepts a command. A command goes to exactly one instance (R124). -/
def System.acceptOne {n : Nat} (sys : System n) (g : Fin n) (c : Command) : Host.Outcome (System n) Fault Refusal :=
  sys.afterOne g (accept c sys[g])

/-- `CLONE ga -> gb`: the host sends SAVE to `ga`, takes the image of its response, and sends it in a RESTORE to `gb`,
with no command to either between (R103). -/
def System.clone {n : Nat} (sys : System n) (ga gb : Fin n) : Host.Outcome (System n) Fault Refusal :=
  match sys.acceptOne ga (encode .save) with
  | .fault r   => .fault r
  | .refused r => .refused r
  | .next sys' =>
    let img := (sys'[ga].sent.getLast?.map Response.words).getD []
    sys'.acceptOne gb (encode (.restore img))

end Sys2Proof.Machine
end

