-- ==== Sys2Proof/Safety.lean ====
section
/-! DEFINITION. What counts as a safe run, the invariant, and the spec's tables in the terms claims use. -/

namespace Sys2Proof.Machine

/-- The event is one of a host that keeps the protocol of R133: it presents no command while another is in progress. -/
def PortEvent.keepsProtocol : PortEvent → Bool
  | .overlap _ _ => false
  | _            => true

/-- The host keeps the protocol in every event still at the port (R133): such a block never faults. -/
def State.hostKeepsProtocol (s : State) : Bool := s.port.all PortEvent.keepsProtocol

/-- Every word of the array has been written. -/
def GenState.allWritten (g : GenState) : Bool := g.mt.toList.all Option.isSome

/-- The invariant of R31 and R36: unwritten words exist only in the reset state, so wherever one exists, `IDX` = 625 and
no value has been emitted. -/
def GenState.Inv (g : GenState) : Prop := g.allWritten = true ∨ g = GenState.reset

/-- The column `OP` of R54's table. -/
def opcodeOf : Instr → BitVec 3
  | .seed _    => 0b000
  | .seedDef   => 0b001
  | .next      => 0b010
  | .save      => 0b011
  | .restore _ => 0b100
  | .pos       => 0b101

/-- The column `W` of R54's table. -/
def commandWordOf : Instr → Word
  | .seed _    => 0x00000000
  | .seedDef   => 0x00000001
  | .next      => 0x00000002
  | .save      => 0x00000003
  | .restore _ => 0x00000004
  | .pos       => 0x00000005

/-- The column "result words" of R54's table. -/
def resultWordsOf : Instr → Nat
  | .seed _    => 0
  | .seedDef   => 0
  | .next      => 1
  | .save      => 627
  | .restore _ => 0
  | .pos       => 2

/-- The new word of R76 from the three words its step reads, written with the literals of RNGH's text that R76 quotes.
-/
def twistWordOf (here after far : Word) : Word :=
  let y := (here &&& 0x80000000#32) ||| (after &&& 0x7fffffff#32)
  far ^^^ (y >>> 1) ^^^ (if y.getLsbD 0 = true then 0x9908b0df#32 else 0#32)

/-- The commands are only draws and position reads: NEXT and POS. -/
def drawsAndReads (cs : List Command) : Prop := ∀ c ∈ cs, c = encode .next ∨ c = encode .pos

end Sys2Proof.Machine
end

