-- ==== Sys2Proof/Certificates/Slice0/Obligations.lean ====
section
/-! DEFINITION. The statements for the provers, from the numbered rules of spec/. `acceptAll cs s` is the block after
the commands `cs`, one at a time, in order (R47). -/

open Sys2Proof Sys2Proof.Machine

/-! ### Encoding and decode -/

/-- R55: a command is selected exactly when `W[31:3]` = 0 and `W[2:0]` is its `OP`; its mask is 0xFFFFFFFF and its match
the `W` of R54; exactly six command words are valid. -/
def Obligations.ExactlySixWordsSelectACommand : Prop :=
  ∀ W : Word,
    (∀ i : Instr,
      ((∃ D j, decode ⟨W, D⟩ = .ok j ∧ opcodeOf j = opcodeOf i) ↔
        W.extractLsb' 3 29 = 0#29 ∧ W.extractLsb' 0 3 = opcodeOf i) ∧
      ((∃ D j, decode ⟨W, D⟩ = .ok j ∧ opcodeOf j = opcodeOf i) ↔ W &&& 0xFFFFFFFF#32 = commandWordOf i)) ∧
    ((∃ D i, decode ⟨W, D⟩ = .ok i) ↔ W.toNat < 6)

/-- Decode and encode agree, for every instruction at every operand: what decodes to `i` is exactly its encoding. -/
def Obligations.DecodeIsTheInverseOfEncode : Prop :=
  ∀ (c : Command) (i : Instr), decode c = .ok i ↔ c = encode i

/-- Sanity: command words written out from the encodings of R54 and R63 decode to the commands they stand for. -/
def Obligations.WrittenOutWordsDecode : Prop :=
  decode ⟨0x00000000#32, [0x00001571#32]⟩ = .ok (.seed 5489#32) ∧
  decode ⟨0x00000001#32, []⟩ = .ok .seedDef ∧
  decode ⟨0x00000002#32, []⟩ = .ok .next ∧
  decode ⟨0x00000003#32, []⟩ = .ok .save ∧
  decode ⟨0x00000004#32, [0x00000001#32, 0x00000002#32]⟩ = .ok (.restore [1#32, 2#32]) ∧
  decode ⟨0x00000005#32, []⟩ = .ok .pos

/-- R113: one command reports at most one error, the first that applies in the order RESERVED_OP for `W[31:3]`,
RESERVED_OP for `OP` 6 or 7, BAD_OPERAND (not RESTORE), INVALID_STATE (RESTORE); an error changes no state. -/
def Obligations.FirstErrorInPriorityOrderIsReported : Prop :=
  ∀ (W : Word) (D : List Word) (s : State),
    (if W.extractLsb' 3 29 ≠ 0#29 then
      accept ⟨W, D⟩ s = .next { s with sent := s.sent ++ [⟨.reservedOp, []⟩] }
    else if W.extractLsb' 0 3 = 0b110#3 ∨ W.extractLsb' 0 3 = 0b111#3 then
      accept ⟨W, D⟩ s = .next { s with sent := s.sent ++ [⟨.reservedOp, []⟩] }
    else if W.extractLsb' 0 3 ≠ 0b100#3 ∧ D.length ≠ (if W.extractLsb' 0 3 = 0b000#3 then 1 else 0) then
      accept ⟨W, D⟩ s = .next { s with sent := s.sent ++ [⟨.badOperand, []⟩] }
    else if W.extractLsb' 0 3 = 0b100#3 ∧ D.length ≠ 627 then
      accept ⟨W, D⟩ s = .next { s with sent := s.sent ++ [⟨.invalidState, []⟩] }
    else ∃ t words, accept ⟨W, D⟩ s = .next t ∧ t.sent = s.sent ++ [⟨.ok, words⟩]) ∧
    ∀ a b : Word, accept ⟨0x00000008#32, [a, b]⟩ s = .next { s with sent := s.sent ++ [⟨.reservedOp, []⟩] }

/-- R60: a SEED with other than one operand word, or a SEEDDEF, NEXT, SAVE or POS with any, is answered with ST = 3 and
changes nothing; a RESTORE's wrong count is answered by the command itself with INVALID_STATE. -/
def Obligations.WrongOperandCountsAreAnswered : Prop :=
  (∀ (D : List Word) (s : State), D.length ≠ 1 →
    accept ⟨0x00000000#32, D⟩ s = .next { s with sent := s.sent ++ [⟨.badOperand, []⟩] }) ∧
  (∀ (W : Word) (D : List Word) (s : State), W = 1#32 ∨ W = 2#32 ∨ W = 3#32 ∨ W = 5#32 → D.length ≠ 0 →
    accept ⟨W, D⟩ s = .next { s with sent := s.sent ++ [⟨.badOperand, []⟩] }) ∧
  (∀ (D : List Word) (s : State), D.length ≠ 627 →
    accept ⟨0x00000004#32, D⟩ s = .next { s with sent := s.sent ++ [⟨.invalidState, []⟩] }) ∧
  (∀ (D : List Word) (s : State), D.length = 627 →
    ∃ t, accept ⟨0x00000004#32, D⟩ s = .next t ∧ t.sent = s.sent ++ [⟨.ok, []⟩]) ∧
  Status.badOperand.code = 3 ∧ Status.invalidState.code = 1

/-- R110: after an error response the block is in the state it held before; re-issuing the command gives the same error;
and every later sequence of commands is answered as if the failed command had not been issued. -/
def Obligations.ErrorsAreNotSticky : Prop :=
  ∀ (c : Command) (s t : State) (r : Response),
    accept c s = .next t → t.sent = s.sent ++ [r] → r.status ≠ .ok →
    t.gen = s.gen ∧ t.port = s.port ∧ t.draws = s.draws ∧
    accept c t = .next { t with sent := t.sent ++ [r] } ∧
    ∀ cs : List Command, ∃ rs u, acceptAll cs s = .next u ∧ u.sent = s.sent ++ rs ∧
      acceptAll cs t = .next { u with sent := t.sent ++ rs }

/-! ### Seeding -/

/-- R67: `A[0] = s`, and `A[i] = (1812433253 * (A[i-1] ^ (A[i-1] >> 30)) + i) mod 2^32` for i in 1..623. -/
def Obligations.SeedArrayFollowsTheRecurrence : Prop :=
  ∀ s : Word, (seedInit s)[0] = s ∧
    ∀ (i : Nat) (before here : Word), 1 ≤ i → i ≤ 623 → (seedInit s)[i - 1]? = some before → (seedInit s)[i]? = some here →
      here.toNat = (1812433253 * (before ^^^ (before >>> 30)).toNat + i) % 2 ^ 32

/-- R69: SEED writes all of MT, IDX = 624 and POS = 0 whatever the state was, always answers OK, and is reached only with
one operand word; with its corner case s = 0 and its example s = 4537. -/
def Obligations.SeedReplacesTheWholeState : Prop :=
  (∀ (w : Word) (s : State), decode ⟨0x00000000#32, [w]⟩ = .ok (.seed w) ∧
    ∃ t, exec (.seed w) s = .next t ∧
      (∀ i : Fin 624, t.gen.mt[i] = some (seedInit w)[i]) ∧ t.gen.idx = 624#32 ∧ t.gen.pos = 0#64 ∧
      t.sent = s.sent ++ [⟨.ok, []⟩] ∧ t.port = s.port ∧ t.draws = s.draws) ∧
  (∀ D : List Word, D.length ≠ 1 → decode ⟨0x00000000#32, D⟩ = .error .badOperand) ∧
  (∀ s t : State, exec (.seed 0#32) s = .next t → t.gen.mt[0] = some 0#32 ∧ t.gen.mt[1] = some 1#32) ∧
  (∀ s t : State, exec (.seed 4537#32) s = .next t →
    t.gen.mt[0] = some 0x000011B9#32 ∧ t.gen.mt[1] = some 0x9191FEFE#32)

/-- R64: SEEDDEF's effect equals `SEED 4537`; its encoding is 0x00000001 with no operand word. -/
def Obligations.SeedDefActsAsSeed4537 : Prop :=
  (∀ s : State, ∃ t, exec .seedDef s = .next t ∧ exec (.seed 4537#32) s = .next t ∧
    t.gen.idx = 624#32 ∧ t.gen.pos = 0#64 ∧ t.sent = s.sent ++ [⟨.ok, []⟩] ∧ t.port = s.port ∧ t.draws = s.draws) ∧
  decode ⟨0x00000001#32, []⟩ = .ok .seedDef ∧ encode .seedDef = ⟨0x00000001#32, []⟩ ∧
  encode .seedDef ≠ encode (.seed 4537#32)

/-- R80: `SEED_INIT` never produces the all-zero array. -/
def Obligations.SeedArrayIsNeverAllZero : Prop :=
  ∀ s : Word, ∃ i : Fin 624, (seedInit s)[i] ≠ 0#32

/-! ### Twist and tempering -/

/-- R76: a twist step rewrites word `kk` from the three words it reads, and no other word. -/
def Obligations.TwistStepRewritesOneWord : Prop :=
  ∀ (A : WordArray) (kk j : Fin 624) (after far : Word),
    A[(kk.val + 1) % 624]? = some after → A[(kk.val + 397) % 624]? = some far →
    (twistStep A kk)[j] = if j = kk then twistWordOf A[kk] after far else A[j]

/-- R78: which words of a twist are original and which were rewritten earlier in the same twist, for the three ranges of
`kk`. -/
def Obligations.TwistReadsWordsItRewrote : Prop :=
  ∀ (A : WordArray) (kk : Nat) (here new : Word), A[kk]? = some here → (twist A)[kk]? = some new →
    (kk ≤ 226 → ∀ after far, A[kk + 1]? = some after → A[kk + 397]? = some far → new = twistWordOf here after far) ∧
    (227 ≤ kk → kk ≤ 622 → ∀ after far, A[kk + 1]? = some after → (twist A)[kk - 227]? = some far →
      new = twistWordOf here after far) ∧
    (kk = 623 → new = twistWordOf here (twist A)[0] (twist A)[396])

/-- R80: only bit 31 of word 0's original value reaches the result of a twist. -/
def Obligations.TwistIgnoresLowBitsOfWordZero : Prop :=
  ∀ A B : WordArray, (∀ j : Fin 624, j ≠ 0 → A[j] = B[j]) → A[0].getLsbD 31 = B[0].getLsbD 31 → twist A = twist B

/-- R80: the all-zero array is a fixed point of the twist, and a block holding it (not at the sentinel) answers every
draw with 0 and keeps it. -/
def Obligations.AllZeroArrayStaysAllZero : Prop :=
  twist (Vector.replicate 624 0#32) = Vector.replicate 624 0#32 ∧
  ∀ s : State, (∀ i : Fin 624, s.gen.mt[i] = some 0#32) → s.gen.idx ≠ 625#32 →
    ∃ t, exec .next s = .next t ∧ t.sent = s.sent ++ [⟨.ok, [0#32]⟩] ∧ (∀ i : Fin 624, t.gen.mt[i] = some 0#32) ∧
      t.gen.idx ≠ 625#32

/-- R83: the four lines of `TEMPER`, with the literals of RNGH's text. -/
def Obligations.TemperIsTheFourLines : Prop :=
  ∀ y0 y1 y2 y3 y4 : Word,
    y1 = y0 ^^^ (y0 >>> 11) → y2 = y1 ^^^ ((y1 <<< 7) &&& 0x9d2c5680#32) →
    y3 = y2 ^^^ ((y2 <<< 15) &&& 0xefc60000#32) → y4 = y3 ^^^ (y3 >>> 18) → temper y0 = y4

/-- R84: tempering gives the same word whether its left shifts truncate to 32 bits or are done in a wider integer,
because the masks clear every bit above 31; in the seeding multiply the wrap does change the value. -/
def Obligations.TemperMasksClearTheWideBits : Prop :=
  (∀ (y0 : Word) (y1 y2 y3 : BitVec 64),
    y1 = y0.setWidth 64 ^^^ (y0.setWidth 64 >>> 11) → y2 = y1 ^^^ ((y1 <<< 7) &&& 0x9d2c5680#64) →
    y3 = y2 ^^^ ((y2 <<< 15) &&& 0xefc60000#64) → (temper y0).setWidth 64 = y3 ^^^ (y3 >>> 18)) ∧
  ∃ before : Word, (seedNext before 1).toNat ≠ 1812433253 * (before ^^^ (before >>> 30)).toNat + 1

/-! ### NEXT -/

/-- R90: what NEXT does for each class of `IDX`, with the whole state after it. Where the array is wholly written (which
the invariant of `UnwrittenWordsOnlyAtReset` gives for every `IDX` but 625), no other hypothesis stands. -/
def Obligations.NextByCursorClass : Prop :=
  (∀ (s : State) (A : WordArray) (y : Word), s.gen.mt = written A → s.gen.idx.toNat ≤ 623 →
    A[s.gen.idx.toNat]? = some y →
    exec .next s = .next { s with
      gen := ⟨written A, s.gen.idx + 1#32, s.gen.pos + 1#64⟩, sent := s.sent ++ [⟨.ok, [temper y]⟩] }) ∧
  (∀ (s : State) (A : WordArray), s.gen.mt = written A → s.gen.idx.toNat = 624 ∨ 626 ≤ s.gen.idx.toNat →
    exec .next s = .next { s with
      gen := ⟨written (twist A), 1#32, s.gen.pos + 1#64⟩, sent := s.sent ++ [⟨.ok, [temper (twist A)[0]]⟩] }) ∧
  (∀ s : State, s.gen.idx.toNat = 625 →
    exec .next s = .next { s with
      gen := ⟨written (twist (seedInit 4537#32)), 1#32, 1#64⟩,
      sent := s.sent ++ [⟨.ok, [temper (twist (seedInit 4537#32))[0]]⟩] }) ∧
  (∀ s t : State, s.gen.idx.toNat ≠ 625 → s.gen.pos.toNat = 2 ^ 64 - 1 → exec .next s = .next t → t.gen.pos.toNat = 0)

/-- NEXT completes from every state, reachable or not, with one word; it keeps its hands off the port and moves the
cursor and the position as R29 and R87 say; below 624 it does not touch the array. -/
def Obligations.NextAlwaysAnswersOneWord : Prop :=
  ∀ s : State, ∃ t y, exec .next s = .next t ∧ t.sent = s.sent ++ [⟨.ok, [y]⟩] ∧ t.port = s.port ∧
    1 ≤ t.gen.idx.toNat ∧ t.gen.idx.toNat ≤ 624 ∧
    (s.gen.idx.toNat ≤ 623 → t.gen.idx.toNat = s.gen.idx.toNat + 1 ∧ t.gen.mt = s.gen.mt) ∧
    (624 ≤ s.gen.idx.toNat → t.gen.idx.toNat = 1 ∧ t.gen.allWritten = true) ∧
    t.gen.pos = if s.gen.idx.toNat = 625 then 1#64 else s.gen.pos + 1#64

/-- R74: NEXT at the sentinel does what SEEDDEF and then NEXT do, and the word is 1288459236. -/
def Obligations.LazySeedingIsSeedDefThenNext : Prop :=
  ∀ s t : State, s.gen.idx = 625#32 → exec .seedDef s = .next t →
    t.gen.idx = 624#32 ∧
    ∃ u v, exec .next s = .next u ∧ exec .next t = .next v ∧ u.gen = v.gen ∧
      u.sent = s.sent ++ [⟨.ok, [1288459236#32]⟩] ∧ v.sent = t.sent ++ [⟨.ok, [1288459236#32]⟩]

/-- R70: the k-th NEXT after `SEED w` (k from 0) returns the tempered word `k mod 624` of the `(floor(k/624) + 1)`-th
successive twist of `SEED_INIT(w)`, from every state. -/
def Obligations.KthDrawAfterSeed : Prop :=
  ∀ (w : Word) (s : State) (k : Nat), ∃ t y,
    acceptAll (encode (.seed w) :: drawCommands (k + 1)) s = .next t ∧
    (Nat.iterate twist (k / 624 + 1) (seedInit w))[k % 624]? = some y ∧
    t.sent.getLast? = some ⟨.ok, [temper y]⟩

/-- R88: the array and the cursor after k draws from a seed: draw number k twists exactly when k mod 624 = 0; and after
a RESTORE with `IDX` = i, i at most 623, the first twist comes on the (625 - i)-th draw. -/
def Obligations.TwistPhase : Prop :=
  (∀ (w : Word) (s : State) (k : Nat), ∃ t,
    acceptAll (encode (.seed w) :: drawCommands k) s = .next t ∧
    t.gen.mt = written (Nat.iterate twist ((k + 623) / 624) (seedInit w)) ∧
    t.gen.idx.toNat = if k % 624 = 0 then 624 else k % 624) ∧
  (∀ (D : List Word) (A : WordArray) (i : Word) (p : Position) (s : State) (j : Nat),
    unimage D = some (A, i, p) → i.toNat ≤ 623 →
    ∃ t, acceptAll (encode (.restore D) :: drawCommands j) s = .next t ∧
      (j ≤ 624 - i.toNat → t.gen.mt = written A ∧ t.gen.idx.toNat = i.toNat + j) ∧
      (j = 625 - i.toNat → t.gen.mt = written (twist A) ∧ t.gen.idx.toNat = 1))

/-! ### The cursor and the position counter -/

/-- R29: what each command and reset leave in `IDX`, and RNGH's own form of the invariant with its condition. -/
def Obligations.CursorAfterEachCommand : Prop :=
  (∀ (w : Word) (s t : State), exec (.seed w) s = .next t → t.gen.idx.toNat = 624) ∧
  (∀ s t : State, exec .seedDef s = .next t → t.gen.idx.toNat = 624) ∧
  (∀ s t : State, exec .next s = .next t → 1 ≤ t.gen.idx.toNat ∧ t.gen.idx.toNat ≤ 624) ∧
  (∀ s t : State, exec .save s = .next t ∨ exec .pos s = .next t → t.gen.idx = s.gen.idx) ∧
  (∀ (D : List Word) (s t : State), exec (.restore D) s = .next t → D.length = 627 → D[624]? = some t.gen.idx) ∧
  State.reset.gen.idx.toNat = 625 ∧
  (∀ (c : Command) (s t : State), s.gen.idx.toNat ≤ 624 → accept c s = .next t →
    (∀ (D : List Word) (i : Word), decode c = .ok (.restore D) → D[624]? = some i → i.toNat ≤ 624) →
    t.gen.idx.toNat ≤ 624)

/-- R24's column "reached by": after a command `IDX` exceeds 624 only if it did so before, unchanged, or a RESTORE's
image put it there. And no command performs a reset (R126): a command ends in the reset state only if it began there. -/
def Obligations.SentinelOnlyFromResetOrRestore : Prop :=
  ∀ (i : Instr) (s t : State), exec i s = .next t →
    (625 ≤ t.gen.idx.toNat →
      t.gen.idx = s.gen.idx ∨ ∃ D, i = .restore D ∧ D.length = 627 ∧ D[624]? = some t.gen.idx) ∧
    (t.gen = GenState.reset → s.gen = GenState.reset)

/-- What each command leaves in `POS` (R27, R28): seeds 0; NEXT one more modulo 2^64, or 1 where it seeds lazily;
RESTORE the image's; SAVE, POS and every error nothing. -/
def Obligations.PositionAfterEachCommand : Prop :=
  (∀ (w : Word) (s t : State), exec (.seed w) s = .next t ∨ exec .seedDef s = .next t → t.gen.pos.toNat = 0) ∧
  (∀ s t : State, exec .next s = .next t →
    t.gen.pos.toNat = if s.gen.idx.toNat = 625 then 1 else (s.gen.pos.toNat + 1) % 2 ^ 64) ∧
  (∀ s t : State, exec .save s = .next t ∨ exec .pos s = .next t → t.gen.pos = s.gen.pos) ∧
  (∀ (D : List Word) (lo hi : Word) (s t : State), exec (.restore D) s = .next t → D.length = 627 →
    D[625]? = some lo → D[626]? = some hi → t.gen.pos.toNat = hi.toNat * 2 ^ 32 + lo.toNat) ∧
  (∀ (D : List Word) (s t : State), exec (.restore D) s = .next t → D.length ≠ 627 → t.gen.pos = s.gen.pos)

/-- R102: after n NEXTs following a SEED or SEEDDEF, n < 2^64, POS returns n (so 0 just after the seed); after reset and
n >= 1 NEXTs, POS returns n. -/
def Obligations.PositionCountsDraws : Prop :=
  ∀ n : Nat, n < 2 ^ 64 →
    (∀ (w : Word) (c : Command) (s : State), c = encode (.seed w) ∨ c = encode .seedDef → ∃ t words,
      acceptAll (c :: (drawCommands n ++ [encode .pos])) s = .next t ∧
      t.sent.getLast? = some ⟨.ok, words⟩ ∧ pos64 words = some (BitVec.ofNat 64 n)) ∧
    (∀ s : State, s.gen = GenState.reset → 1 ≤ n → ∃ t words,
      acceptAll (drawCommands n ++ [encode .pos]) s = .next t ∧
      t.sent.getLast? = some ⟨.ok, words⟩ ∧ pos64 words = some (BitVec.ofNat 64 n))

/-- No command's effect on `MT` or `IDX`, and no response word but POS's result and SAVE's image words 625 and 626,
depends on `POS` (R26, R101). -/
def Obligations.PositionNeverAffectsOutput : Prop :=
  ∀ (i : Instr) (s : State) (p : Position), ∃ t u ws vs st,
    exec i s = .next t ∧ exec i { s with gen := { s.gen with pos := p } } = .next u ∧
    u.gen.mt = t.gen.mt ∧ u.gen.idx = t.gen.idx ∧ u.port = t.port ∧ u.draws = t.draws ∧
    t.sent = s.sent ++ [⟨st, ws⟩] ∧ u.sent = s.sent ++ [⟨st, vs⟩] ∧
    (i ≠ .pos → vs.take 625 = ws.take 625)

/-! ### SAVE, RESTORE, POS -/

/-- SAVE answers 627 words: every written word of the array at its index, `IDX`, and the position low word first; it
writes no architectural state, and reads of a wholly written array take no free value (R93, R41, R43). -/
def Obligations.SaveAnswersTheWholeState : Prop :=
  ∀ s : State, ∃ t img, exec .save s = .next t ∧ t.sent = s.sent ++ [⟨.ok, img⟩] ∧
    t.gen = s.gen ∧ t.port = s.port ∧ (s.gen.allWritten = true → t.draws = s.draws) ∧ img.length = 627 ∧
    (∀ (i : Fin 624) (w : Word), s.gen.mt[i] = some w → img[i.val]? = some w) ∧
    img[624]? = some s.gen.idx ∧
    img[625]? = some (BitVec.ofNat 32 s.gen.pos.toNat) ∧ img[626]? = some (BitVec.ofNat 32 (s.gen.pos.toNat / 2 ^ 32))

/-- Log 3 and log 15 (the model's choices of form): the words a SAVE of a block out of reset reads are 624 consecutive
free values of the block's own source, and the next SAVE reads the next 624, for every value of `draws`. -/
def Obligations.UnwrittenReadsAreFreshFreeValues : Prop :=
  ∀ s : State, s.gen = GenState.reset → ∃ t u img img',
    exec .save s = .next t ∧ exec .save t = .next u ∧
    t.sent = s.sent ++ [⟨.ok, img⟩] ∧ u.sent = t.sent ++ [⟨.ok, img'⟩] ∧
    ∀ i : Fin 624, img[i.val]? = some (Config.freeWord s.draws.source (s.draws.taken + i.val)) ∧
      img'[i.val]? = some (Config.freeWord s.draws.source (s.draws.taken + 624 + i.val))

/-- The SAVE of a block out of reset has `img[624]` = 625 and position words 0, and a block restored from it (any block)
answers NEXT and POS as a block just out of reset does (R94). -/
def Obligations.SaveOfUnseededBlock : Prop :=
  ∀ s r q : State, s.gen = GenState.reset → q.gen = GenState.reset → ∃ t u img,
    exec .save s = .next t ∧ t.gen = s.gen ∧ t.sent = s.sent ++ [⟨.ok, img⟩] ∧ img.length = 627 ∧
    img[624]? = some 625#32 ∧ img[625]? = some 0#32 ∧ img[626]? = some 0#32 ∧
    exec (.restore img) r = .next u ∧
    ∀ cs : List Command, drawsAndReads cs → ∃ rs x y, acceptAll cs u = .next x ∧ acceptAll cs q = .next y ∧
      x.sent = u.sent ++ rs ∧ y.sent = q.sent ++ rs

/-- RESTORE of 627 words, of any values, writes all of `MT`, `IDX` and `POS` verbatim and answers OK; of any other count
it writes nothing and answers INVALID_STATE (R96, R97). -/
def Obligations.RestoreOverwritesTheWholeState : Prop :=
  ∀ (D : List Word) (s : State),
    if D.length = 627 then
      ∃ t, exec (.restore D) s = .next t ∧ (∀ i : Fin 624, t.gen.mt[i] = D[i.val]?) ∧ D[624]? = some t.gen.idx ∧
        D[625]? = some (BitVec.ofNat 32 t.gen.pos.toNat) ∧ D[626]? = some (BitVec.ofNat 32 (t.gen.pos.toNat / 2 ^ 32)) ∧
        t.sent = s.sent ++ [⟨.ok, []⟩] ∧ t.port = s.port ∧ t.draws = s.draws
    else exec (.restore D) s = .next { s with sent := s.sent ++ [⟨.invalidState, []⟩] }

/-- R98: a failed RESTORE changes nothing, and the next command sees the block as if it had not been issued. -/
def Obligations.FailedRestoreChangesNothing : Prop :=
  ∀ (D : List Word) (s : State), D.length ≠ 627 →
    exec (.restore D) s = .next { s with sent := s.sent ++ [⟨.invalidState, []⟩] } ∧
    ∀ c : Command, ∃ u r, accept c s = .next u ∧ u.sent = s.sent ++ [r] ∧
      accept c { s with sent := s.sent ++ [⟨.invalidState, []⟩] } =
        .next { u with sent := s.sent ++ [⟨.invalidState, []⟩, r] }

/-- R41: the layout of the image, `UNIMAGE(IMAGE(S)) = S`, and `IMAGE(UNIMAGE(w)) = w` for every 627-word `w`;
`UNIMAGE` is defined only for 627 words. -/
def Obligations.ImageRoundTrip : Prop :=
  (∀ (A : WordArray) (i : Word) (p : Position),
    (image A i p).length = 627 ∧ (∀ k : Fin 624, (image A i p)[k.val]? = some A[k]) ∧
    (image A i p)[624]? = some i ∧ (image A i p)[625]? = some (p.extractLsb' 0 32) ∧
    (image A i p)[626]? = some (p.extractLsb' 32 32) ∧ unimage (image A i p) = some (A, i, p)) ∧
  (∀ w : List Word, w.length = 627 → ∃ A i p, unimage w = some (A, i, p) ∧ image A i p = w) ∧
  (∀ w : List Word, w.length ≠ 627 → unimage w = none)

/-- R99: after SAVE on one block and RESTORE of its image on any block, both answer every later sequence of commands
alike; a block that still holds unwritten words (by the invariant only one out of reset) does so for NEXT and POS. -/
def Obligations.SnapshotReplaysTheSequence : Prop :=
  ∀ s r : State, s.gen.Inv → ∃ t u img,
    exec .save s = .next t ∧ t.sent = s.sent ++ [⟨.ok, img⟩] ∧
    exec (.restore img) r = .next u ∧ u.sent = r.sent ++ [⟨.ok, []⟩] ∧
    ∀ cs : List Command, s.gen.allWritten = true ∨ drawsAndReads cs →
      ∃ rs x y, acceptAll cs t = .next x ∧ acceptAll cs u = .next y ∧ x.sent = t.sent ++ rs ∧ y.sent = u.sent ++ rs

/-- POS answers the position counter, low word first, and changes nothing (R100); POS64 of its words is the counter
(R65). -/
def Obligations.PosAnswersTheCounter : Prop :=
  ∀ s : State, ∃ lo hi : Word,
    exec .pos s = .next { s with sent := s.sent ++ [⟨.ok, [lo, hi]⟩] } ∧
    hi.toNat * 2 ^ 32 + lo.toNat = s.gen.pos.toNat ∧ pos64 [lo, hi] = some s.gen.pos

/-- R45: SEED with the same seed, SEEDDEF, and RESTORE of the same image leave the same state however often repeated;
SAVE and POS change no state and, on a wholly written array, repeat their result words. -/
def Obligations.RepeatedCommandsAreIdempotent : Prop :=
  ∀ (i : Instr) (s : State), i ≠ .next → ∃ t u r q,
    exec i s = .next t ∧ exec i t = .next u ∧ u.gen = t.gen ∧
    t.sent = s.sent ++ [r] ∧ u.sent = t.sent ++ [q] ∧ (i ≠ .save ∨ s.gen.allWritten = true → q = r) ∧
    (i = .save ∨ i = .pos → t.gen = s.gen)

/-! ### The machine: steps, responses, reset, faults -/

/-- A step runs the decoded instruction: with a command next at the port, the step is `exec` of what it decodes to, the
command taken off the port; where decode refuses it, the step answers decode's error. That a command waits in the list `port`
and a step takes the list's head is the model's choice (log 1). -/
def Obligations.StepRunsTheDecodedCommand : Prop :=
  ∀ (s : State) (c : Command) (rest : List PortEvent), s.port = .command c :: rest →
    (∀ i, decode c = .ok i → step s = exec i { s with port := rest }) ∧
    (decode c = .error .reservedOp →
      step s = .next { s with port := rest, sent := s.sent ++ [⟨.reservedOp, []⟩] }) ∧
    (decode c = .error .badOperand →
      step s = .next { s with port := rest, sent := s.sent ++ [⟨.badOperand, []⟩] })

/-- Log 4 (a DESIGN CHOICE): a block with no event at its port holds its state, as R122 says of a block that is powered
and not reset. -/
def Obligations.IdleBlockHoldsItsState : Prop :=
  ∀ s : State, s.port = [] → step s = .next s

/-- The block runs the commands at its port in order (R47), so what `acceptAll` says of any order of commands holds of a
run: one step per command. That a step takes the head of the list `port` is the model's choice (log 1), and so is one
step per command, with no time (log 13). -/
def Obligations.StepsTakeThePortInOrder : Prop :=
  ∀ (cs : List Command) (rest : List PortEvent) (s : State),
    Host.Core.run core cs.length { s with port := cs.map PortEvent.command ++ rest } = acceptAll cs { s with port := rest }

/-- R127: a reset during a command abandons it: no response, and none of its writes survive; the state is the reset
state of R126. That the host's later events stay in `port` is the model's form (log 6). -/
def Obligations.ResetDuringCommandAbandonsIt : Prop :=
  ∀ (s : State) (c : Command) (rest : List PortEvent), s.port = .resetDuring c :: rest →
    ∃ t, step s = .next t ∧ t.sent = s.sent ∧ t.port = rest ∧
      t.gen.idx = 625#32 ∧ t.gen.pos = 0#64 ∧ ∀ i : Fin 624, t.gen.mt[i] = none

/-- Reset, applied between commands, from any state leaves `IDX` = 625, `POS` = 0 and every word unwritten, and sends no
response (R126, R36). That the host's later events stay in `port` is the model's form (log 6). -/
def Obligations.ResetLeavesTheUnseededState : Prop :=
  ∀ (s : State) (rest : List PortEvent), s.port = .reset :: rest →
    ∃ t, step s = .next t ∧ t.sent = s.sent ∧ t.port = rest ∧ t.gen = State.reset.gen ∧
      t.gen.idx = 625#32 ∧ t.gen.pos = 0#64 ∧ ∀ i : Fin 624, t.gen.mt[i] = none

/-- R134: a command presented while another is in progress is the fault `ProtocolViolation`. That
the overlap is one event of `port` is the model's form (log 5). -/
def Obligations.OverlapIsAProtocolViolation : Prop :=
  ∀ (s : State) (c c' : Command) (rest : List PortEvent), s.port = .overlap c c' :: rest →
    step s = .fault .protocolViolation

/-- The block never refuses, faults only on a protocol breach, and under a host that keeps the protocol of R133 every
step succeeds (R138, R109). -/
def Obligations.BlockNeverStopsUnderTheProtocol : Prop :=
  (∀ (s : State) (r : Refusal), step s ≠ .refused r) ∧
  (∀ (s : State) (f : Fault), step s = .fault f → ∃ c c' rest, s.port = .overlap c c' :: rest) ∧
  (∀ s : State, s.hostKeepsProtocol = true → ∃ t, step s = .next t ∧ t.hostKeepsProtocol = true)

/-- R56: every command gets exactly one response; a successful one has the result words of R54's table, an error response
has none and (R111) the state is as before. -/
def Obligations.EveryCommandIsAnsweredOnce : Prop :=
  ∀ (c : Command) (s : State), ∃ t r, accept c s = .next t ∧ t.sent = s.sent ++ [r] ∧ t.port = s.port ∧
    (r.status = .ok → ∃ i, decode c = .ok i ∧ r.words.length = resultWordsOf i) ∧
    (r.status ≠ .ok → r.words = [] ∧ t.gen = s.gen ∧ t.draws = s.draws)

/-- The four status codes (R57), and which errors which condition gives: INVALID_STATE only from RESTORE, the other two
only from decode (R108, R109). -/
def Obligations.EachErrorHasOneSource : Prop :=
  Status.ok.code = 0 ∧ Status.invalidState.code = 1 ∧ Status.reservedOp.code = 2 ∧ Status.badOperand.code = 3 ∧
  ∀ (c : Command) (s t : State) (r : Response), accept c s = .next t → t.sent = s.sent ++ [r] →
    (r.status = .invalidState ↔ ∃ D, decode c = .ok (.restore D) ∧ D.length ≠ 627) ∧
    (r.status = .reservedOp ↔ decode c = .error .reservedOp) ∧
    (r.status = .badOperand ↔ decode c = .error .badOperand)

/-- R47, R133: each response reflects every command accepted before it and none accepted after it, and responses come in
command order, one each. -/
def Obligations.ResponsesComeInCommandOrder : Prop :=
  ∀ (cs ds : List Command) (s : State), ∃ t u rs qs,
    acceptAll cs s = .next t ∧ t.sent = s.sent ++ rs ∧ rs.length = cs.length ∧
    acceptAll (cs ++ ds) s = .next u ∧ u.sent = s.sent ++ rs ++ qs ∧ qs.length = ds.length

/-- Every step keeps the invariant: unwritten words exist only in the reset state (R31, R36). -/
def Obligations.UnwrittenWordsOnlyAtReset : Prop :=
  ∀ s t : State, s.gen.Inv → step s = .next t → t.gen.Inv

/-- The invariant holds at reset, where `IDX` = 625, `POS` = 0, every word is unwritten. That `sent` and
`port` are empty there is the model's choice (log 1, log 2). -/
def Obligations.ResetMeetsTheInvariant : Prop :=
  State.reset.gen.Inv ∧ State.reset.gen.idx = 625#32 ∧ State.reset.gen.pos = 0#64 ∧
  (∀ i : Fin 624, State.reset.gen.mt[i] = none) ∧ State.reset.sent = [] ∧ State.reset.port = []

/-- R130: reset followed by NEXTs (and POS reads) is answered exactly as SEEDDEF followed by the same commands, and from
the first NEXT on the two blocks hold the same state; before it they differ in what SAVE shows. -/
def Obligations.ResetThenNextEqualsSeedDefThenNext : Prop :=
  ∀ s r : State, s.gen = GenState.reset → ∃ t, exec .seedDef r = .next t ∧
    s.gen.idx = 625#32 ∧ (∀ i : Fin 624, s.gen.mt[i] = none) ∧
    t.gen.idx = 624#32 ∧ t.gen.mt = written (seedInit 4537#32) ∧
    (∃ x y, exec .pos s = .next x ∧ x.sent = s.sent ++ [⟨.ok, [0#32, 0#32]⟩] ∧
      exec .pos t = .next y ∧ y.sent = t.sent ++ [⟨.ok, [0#32, 0#32]⟩]) ∧
    ∀ cs : List Command, drawsAndReads cs → ∃ rs x y, acceptAll cs s = .next x ∧ acceptAll cs t = .next y ∧
      x.sent = s.sent ++ rs ∧ y.sent = t.sent ++ rs ∧ (encode .next ∈ cs → x.gen = y.gen)

/-- R31: two blocks with equal state and no unwritten word answer equal command sequences alike; blocks that hold
unwritten words have `IDX` = 625, and two blocks at 625 with equal `POS` answer NEXT and POS alike. -/
def Obligations.StateDeterminesAllResponses : Prop :=
  (∀ s r : State, s.gen = r.gen → s.gen.allWritten = true → ∀ cs : List Command, ∃ rs x y,
    acceptAll cs s = .next x ∧ acceptAll cs r = .next y ∧ x.sent = s.sent ++ rs ∧ y.sent = r.sent ++ rs) ∧
  (∀ s : State, s.gen.Inv → s.gen.allWritten = false → s.gen.idx = 625#32) ∧
  (∀ s r : State, s.gen.idx = 625#32 → r.gen.idx = 625#32 → s.gen.pos = r.gen.pos →
    ∀ cs : List Command, drawsAndReads cs → ∃ rs x y,
      acceptAll cs s = .next x ∧ acceptAll cs r = .next y ∧ x.sent = s.sent ++ rs ∧ y.sent = r.sent ++ rs)

/-! ### Several instances -/

/-- R124: a command goes to exactly one instance and changes only that instance; what two instances do does not depend
on the order in which they do it, so every interleaving of their commands gives the same system. -/
def Obligations.InstancesStepIndependently : Prop :=
  ∀ (n : Nat) (sys : System n) (g h : Fin n) (c d : Command), g ≠ h → ∃ x y z : System n,
    sys.acceptOne g c = .next x ∧ accept c sys[g] = .next x[g] ∧ (∀ k : Fin n, k ≠ g → x[k] = sys[k]) ∧
    sys.acceptOne h d = .next y ∧ x.acceptOne h d = .next z ∧ y.acceptOne g c = .next z ∧
    ∀ x' : System n, sys.stepOne g = .next x' → ∀ k : Fin n, k ≠ g → x'[k] = sys[k]

/-- CLONE copies the source's state into the destination, whatever it held, and changes no other instance and no state of
the source (R103); of an unseeded source it copies `IDX` = 625 and `POS` = 0 (R105). -/
def Obligations.CloneCopiesTheSource : Prop :=
  ∀ (n : Nat) (sys : System n) (ga gb : Fin n), ga ≠ gb → ∃ sys' : System n,
    sys.clone ga gb = .next sys' ∧ sys'[ga].gen = sys[ga].gen ∧
    (sys[ga].gen.allWritten = true → sys'[gb].gen = sys[ga].gen) ∧
    sys'[gb].gen.idx = sys[ga].gen.idx ∧ sys'[gb].gen.pos = sys[ga].gen.pos ∧
    sys'[gb].sent = sys[gb].sent ++ [⟨.ok, []⟩] ∧
    ∀ g : Fin n, g ≠ ga → g ≠ gb → sys'[g] = sys[g]

/-- R104: after CLONE the two instances share no state: commands to one change neither the state of the other nor its
responses, and each returns the same draws as the other for the same commands. -/
def Obligations.ClonesAreIndependentAndEqual : Prop :=
  ∀ (n : Nat) (sys : System n) (ga gb : Fin n), ga ≠ gb → sys[ga].gen.Inv → ∃ sys' : System n,
    sys.clone ga gb = .next sys' ∧
    (∀ (c : Command) (x : System n), sys'.acceptOne ga c = .next x → x[gb] = sys'[gb]) ∧
    (∀ (c : Command) (x : System n), sys'.acceptOne gb c = .next x → x[ga] = sys'[ga]) ∧
    ∀ cs : List Command, sys[ga].gen.allWritten = true ∨ drawsAndReads cs → ∃ rs x y,
      acceptAll cs sys'[ga] = .next x ∧ acceptAll cs sys'[gb] = .next y ∧
      x.sent = sys'[ga].sent ++ rs ∧ y.sent = sys'[gb].sent ++ rs

/-- Log 3 and log 15 (the model's choices of form): in a system right after reset a SAVE of instance `g` reads the free
values of the source `g`, its own, and no step of any instance changes which source an instance reads from. So nothing
relates the unwritten words of two instances, which the spec leaves open (R31, R36, R94). -/
def Obligations.InstancesReadTheirOwnFreeValues : Prop :=
  (∀ (n : Nat) (g : Fin n), (System.reset n)[g].gen = GenState.reset ∧ ∃ (sys : System n) (img : List Word),
    (System.reset n).acceptOne g (encode .save) = .next sys ∧ sys[g].sent = [⟨.ok, img⟩] ∧
    ∀ i : Fin 624, img[i.val]? = some (Config.freeWord g.val i.val)) ∧
  ∀ (n : Nat) (sys sys' : System n) (g : Fin n), sys.stepOne g = .next sys' →
    ∀ k : Fin n, sys'[k].draws.source = sys[k].draws.source
end

