-- ==== Sys2Proof/Laws/State.lean ====
section
/-! SUPPORT. One lemma per field per update of the state, true by `rfl`, so that no proof unfolds a record update. -/

namespace Sys2Proof.Machine

variable (s : State)

@[simp] theorem State.writeArray_mt (A : WordArray) : (s.writeArray A).gen.mt = written A := rfl
@[simp] theorem State.writeArray_idx (A : WordArray) : (s.writeArray A).gen.idx = s.gen.idx := rfl
@[simp] theorem State.writeArray_pos (A : WordArray) : (s.writeArray A).gen.pos = s.gen.pos := rfl
@[simp] theorem State.writeArray_port (A : WordArray) : (s.writeArray A).port = s.port := rfl
@[simp] theorem State.writeArray_sent (A : WordArray) : (s.writeArray A).sent = s.sent := rfl
@[simp] theorem State.writeArray_draws (A : WordArray) : (s.writeArray A).draws = s.draws := rfl

@[simp] theorem State.writeIdx_mt (i : Word) : (s.writeIdx i).gen.mt = s.gen.mt := rfl
@[simp] theorem State.writeIdx_idx (i : Word) : (s.writeIdx i).gen.idx = i := rfl
@[simp] theorem State.writeIdx_pos (i : Word) : (s.writeIdx i).gen.pos = s.gen.pos := rfl
@[simp] theorem State.writeIdx_port (i : Word) : (s.writeIdx i).port = s.port := rfl
@[simp] theorem State.writeIdx_sent (i : Word) : (s.writeIdx i).sent = s.sent := rfl
@[simp] theorem State.writeIdx_draws (i : Word) : (s.writeIdx i).draws = s.draws := rfl

@[simp] theorem State.writePos_mt (p : Position) : (s.writePos p).gen.mt = s.gen.mt := rfl
@[simp] theorem State.writePos_idx (p : Position) : (s.writePos p).gen.idx = s.gen.idx := rfl
@[simp] theorem State.writePos_pos (p : Position) : (s.writePos p).gen.pos = p := rfl
@[simp] theorem State.writePos_port (p : Position) : (s.writePos p).port = s.port := rfl
@[simp] theorem State.writePos_sent (p : Position) : (s.writePos p).sent = s.sent := rfl
@[simp] theorem State.writePos_draws (p : Position) : (s.writePos p).draws = s.draws := rfl

@[simp] theorem State.respond_mt (st : Status) (ws : List Word) : (s.respond st ws).gen.mt = s.gen.mt := rfl
@[simp] theorem State.respond_idx (st : Status) (ws : List Word) : (s.respond st ws).gen.idx = s.gen.idx := rfl
@[simp] theorem State.respond_pos (st : Status) (ws : List Word) : (s.respond st ws).gen.pos = s.gen.pos := rfl
@[simp] theorem State.respond_port (st : Status) (ws : List Word) : (s.respond st ws).port = s.port := rfl
@[simp] theorem State.respond_sent (st : Status) (ws : List Word) : (s.respond st ws).sent = s.sent ++ [⟨st, ws⟩] := rfl
@[simp] theorem State.respond_draws (st : Status) (ws : List Word) : (s.respond st ws).draws = s.draws := rfl

@[simp] theorem State.raise_mt (e : Status) : (s.raise e).gen.mt = s.gen.mt := rfl
@[simp] theorem State.raise_idx (e : Status) : (s.raise e).gen.idx = s.gen.idx := rfl
@[simp] theorem State.raise_pos (e : Status) : (s.raise e).gen.pos = s.gen.pos := rfl
@[simp] theorem State.raise_port (e : Status) : (s.raise e).port = s.port := rfl
@[simp] theorem State.raise_sent (e : Status) : (s.raise e).sent = s.sent ++ [⟨e, []⟩] := rfl
@[simp] theorem State.raise_draws (e : Status) : (s.raise e).draws = s.draws := rfl

@[simp] theorem State.applyReset_mt : (s.applyReset).gen.mt = GenState.reset.mt := rfl
@[simp] theorem State.applyReset_idx : (s.applyReset).gen.idx = 625#32 := rfl
@[simp] theorem State.applyReset_pos : (s.applyReset).gen.pos = 0#64 := rfl
@[simp] theorem State.applyReset_port : (s.applyReset).port = s.port := rfl
@[simp] theorem State.applyReset_sent : (s.applyReset).sent = s.sent := rfl
@[simp] theorem State.applyReset_draws : (s.applyReset).draws = s.draws := rfl

end Sys2Proof.Machine
end

