-- ==== Sys2Proof/Laws/Ops.lean ====
section
/-! SUPPORT. What the shared operations over the array do: a read of written words is those words and takes no draw. -/

namespace Sys2Proof.Machine

@[simp] theorem written_getElem (A : WordArray) (i : Nat) (h : i < 624) : (written A)[i] = some A[i] := by
  simp [written]

theorem written_toList (A : WordArray) : (written A).toList = A.toList.map some := rfl

theorem written_injective {A B : WordArray} (h : written A = written B) : A = B := by
  ext i hi : 1
  simpa [hi] using congrArg (fun v : Vector (Option Word) 624 => v[i]) h

@[simp] theorem readWords_map_some (l : List Word) (d : Draws) : readWords (l.map some) d = l := by
  induction l with
  | nil => rfl
  | cons w l ih => simp [readWords, ih]

@[simp] theorem unwrittenCount_map_some (l : List Word) : unwrittenCount (l.map some) = 0 := by
  induction l with
  | nil => rfl
  | cons w l ih => simp [unwrittenCount, ih]

@[simp] theorem Draws.advance_source (d : Draws) (n : Nat) : (d.advance n).source = d.source := rfl
@[simp] theorem Draws.advance_taken (d : Draws) (n : Nat) : (d.advance n).taken = d.taken + n := rfl
@[simp] theorem Draws.advance_zero (d : Draws) : d.advance 0 = d := rfl

/-- All a read of an array does: its words are `readWords`, and only `draws` moves. -/
theorem State.readArray_frame (s : State) :
    s.readArray.2.gen = s.gen ∧ s.readArray.2.port = s.port ∧ s.readArray.2.sent = s.sent := ⟨rfl, rfl, rfl⟩

theorem State.readArray_toList (s : State) : s.readArray.1.toList = readWords s.gen.mt.toList s.draws := rfl

/-- A read of a wholly written array gives its words and takes no draw. -/
theorem State.readArray_written {s : State} {A : WordArray} (h : s.gen.mt = written A) : s.readArray = (A, s) := by
  have h1 : s.readArray.1 = A := by
    apply Vector.toList_inj.mp
    rw [s.readArray_toList, h, written_toList, readWords_map_some]
  have h2 : s.readArray.2 = s := by
    simp [State.readArray, h, written_toList]
  exact Prod.ext h1 h2

/-- All a read of a word does: only `draws` moves. -/
theorem State.readWord_frame (s : State) (i : Nat) :
    (s.readWord i).2.gen = s.gen ∧ (s.readWord i).2.port = s.port ∧ (s.readWord i).2.sent = s.sent := by
  unfold State.readWord
  split <;> exact ⟨rfl, rfl, rfl⟩

theorem State.readArray_source (s : State) : s.readArray.2.draws.source = s.draws.source := rfl

theorem State.readWord_source (s : State) (i : Nat) : (s.readWord i).2.draws.source = s.draws.source := by
  unfold State.readWord
  split <;> rfl

/-- A read of a written word gives it and takes no draw. -/
theorem State.readWord_written {s : State} {A : WordArray} (h : s.gen.mt = written A) {i : Nat} (hi : i < 624) :
    s.readWord i = (A[i], s) := by
  simp [State.readWord, h, hi]

theorem GenState.allWritten_of_written {g : GenState} {A : WordArray} (h : g.mt = written A) : g.allWritten = true := by
  simp [GenState.allWritten, h, written_toList]

/-- A wholly written array is `written` of the words it holds. -/
theorem GenState.exists_written {g : GenState} (h : g.allWritten = true) : ∃ A, g.mt = written A := by
  have hs : ∀ i (hi : i < 624), g.mt[i].isSome = true := fun i hi => by
    have := List.all_eq_true.mp h g.mt[i] (by simp)
    exact this
  refine ⟨Vector.ofFn fun i => g.mt[i].get (hs i i.2), ?_⟩
  ext i hi : 1
  simp

end Sys2Proof.Machine
end

