-- ==== Sys2Proof/Laws/Exec.lean ====
section
/-! SUPPORT. What acceptance, sequences of commands, steps and systems do, said once. -/

namespace Sys2Proof.Machine

@[simp] theorem State.seedWith_gen (s : State) (w : Word) : (s.seedWith w).gen = ⟨written (seedInit w), 624#32, 0#64⟩ := rfl
@[simp] theorem State.seedWith_port (s : State) (w : Word) : (s.seedWith w).port = s.port := rfl
@[simp] theorem State.seedWith_sent (s : State) (w : Word) : (s.seedWith w).sent = s.sent := rfl
@[simp] theorem State.seedWith_draws (s : State) (w : Word) : (s.seedWith w).draws = s.draws := rfl

theorem accept_of_ok {c : Command} {i : Instr} (h : decode c = .ok i) (s : State) : accept c s = exec i s := by
  simp [accept, h]

theorem accept_of_error {c : Command} {e : DecodeError} (h : decode c = .error e) (s : State) :
    accept c s = .next (s.raise (errorStatus e)) := by
  simp [accept, h]

@[simp] theorem acceptAll_nil (s : State) : acceptAll [] s = .next s := rfl

theorem acceptAll_cons {c : Command} {s t : State} (h : accept c s = .next t) (cs : List Command) :
    acceptAll (c :: cs) s = acceptAll cs t := by
  simp [acceptAll, h]

theorem acceptAll_append {cs : List Command} {s t : State} (h : acceptAll cs s = .next t) (ds : List Command) :
    acceptAll (cs ++ ds) s = acceptAll ds t := by
  induction cs generalizing s with
  | nil => cases h; rfl
  | cons c cs ih =>
    simp only [List.cons_append, acceptAll] at h ⊢
    split at h
    · exact ih h
    all_goals cases h

theorem step_of_idle {s : State} (h : s.port = []) : step s = .next s := by simp [step, h]

theorem step_of_event {s : State} {e : PortEvent} {rest : List PortEvent} (h : s.port = e :: rest) :
    step s = handle e { s with port := rest } := by
  simp [step, h]

theorem System.afterOne_next {n : Nat} (sys : System n) (g : Fin n) (s : State) :
    sys.afterOne g (.next s) = .next (sys.set g s) := rfl

end Sys2Proof.Machine
end

