-- ==== Sys2Proof/Laws/Draw.lean ====
section
/-! SUPPORT. What each of NEXT's three parts does (R87), so that no proof unfolds them. -/

namespace Sys2Proof.Machine

theorem defaultSeed_eq : defaultSeed = 4537#32 := rfl

theorem State.seedIfNeverSeeded_of_eq {s : State} (h : s.gen.idx = 625#32) :
    s.seedIfNeverSeeded = s.seedWith defaultSeed := by
  simp [State.seedIfNeverSeeded, neverSeeded, sentinel, h]

theorem State.seedIfNeverSeeded_of_ne {s : State} (h : s.gen.idx ≠ 625#32) : s.seedIfNeverSeeded = s := by
  simp [State.seedIfNeverSeeded, neverSeeded, sentinel, h]

theorem State.regenerateIfExhausted_of_lt {s : State} (h : s.gen.idx.toNat < 624) : s.regenerateIfExhausted = s := by
  have hn : noWordLeft s.gen.idx = false := by
    simp only [noWordLeft, N, decide_eq_false_iff_not]; omega
  simp only [State.regenerateIfExhausted, hn, Bool.false_eq_true, if_false]

theorem State.regenerateIfExhausted_of_le {s : State} (h : 624 ≤ s.gen.idx.toNat) :
    s.regenerateIfExhausted = s.regenerate := by
  have hn : noWordLeft s.gen.idx = true := by simp [noWordLeft, N, h]
  simp only [State.regenerateIfExhausted, hn, if_true]

/-- All a twist of the block does: the array it leaves is the twist of the one read, `IDX` = 0, and only `draws` moves
besides. -/
theorem State.regenerate_frame (s : State) :
    s.regenerate.gen = ⟨written (twist s.readArray.1), 0#32, s.gen.pos⟩ ∧ s.regenerate.port = s.port ∧
      s.regenerate.sent = s.sent := by
  simp only [State.regenerate, State.writeArray, State.writeIdx, s.readArray_frame, and_self]

theorem State.regenerate_written {s : State} {A : WordArray} (h : s.gen.mt = written A) :
    s.regenerate = { s with gen := ⟨written (twist A), 0#32, s.gen.pos⟩ } := by
  simp only [State.regenerate, State.readArray_written h, State.writeArray, State.writeIdx]

/-- All an emission does: it advances the cursor and the counter, sends one word, and only `draws` moves besides. -/
theorem State.emit_frame (s : State) :
    s.emit.gen = ⟨s.gen.mt, s.gen.idx + 1#32, s.gen.pos + 1#64⟩ ∧ s.emit.port = s.port ∧
      s.emit.sent = s.sent ++ [⟨.ok, [temper (s.readWord s.gen.idx.toNat).1]⟩] := by
  simp [State.emit, State.writeIdx, State.writePos, State.respond, s.readWord_frame]

theorem State.seedIfNeverSeeded_draws (s : State) : s.seedIfNeverSeeded.draws = s.draws := by
  unfold State.seedIfNeverSeeded
  split
  · exact s.seedWith_draws _
  · rfl

theorem State.regenerateIfExhausted_source (s : State) :
    s.regenerateIfExhausted.draws.source = s.draws.source := by
  unfold State.regenerateIfExhausted
  split
  · simp only [State.regenerate, State.writeIdx_draws, State.writeArray_draws, State.readArray_source]
  · rfl

theorem State.emit_source (s : State) : s.emit.draws.source = s.draws.source := s.readWord_source _

theorem State.emit_written {s : State} {A : WordArray} (h : s.gen.mt = written A) (hi : s.gen.idx.toNat < 624) :
    s.emit = { s with
      gen := ⟨written A, s.gen.idx + 1#32, s.gen.pos + 1#64⟩,
      sent := s.sent ++ [⟨.ok, [temper A[s.gen.idx.toNat]]⟩] } := by
  simp only [State.emit, State.readWord_written h hi, State.writeIdx, State.writePos, State.respond, h]

end Sys2Proof.Machine
end

