-- ==== Sys2Proof/Laws/Frame.lean ====
section
/-! SUPPORT. All that a command can do, said once: it reads the architectural state and the bookkeeping of draws alone,
leaves the port, and appends one response. -/

namespace Sys2Proof.Machine

/-- What a command does depends on the architectural state and the bookkeeping of draws alone; it keeps the port and
appends one response. -/
theorem exec_frame (i : Instr) (γ : GenState) (δ : Draws) :
    ∃ g d r, ∀ p q, exec i ⟨γ, p, q, δ⟩ = .next ⟨g, p, q ++ [r], d⟩ := by
  cases i with
  | seed w => exact ⟨⟨written (seedInit w), 624#32, 0#64⟩, δ, ⟨.ok, []⟩, fun p q => rfl⟩
  | seedDef => exact ⟨⟨written (seedInit defaultSeed), 624#32, 0#64⟩, δ, ⟨.ok, []⟩, fun p q => rfl⟩
  | pos => exact ⟨γ, δ, ⟨.ok, [posLow γ.pos, posHigh γ.pos]⟩, fun p q => rfl⟩
  | save =>
    exact ⟨γ, δ.advance (unwrittenCount γ.mt.toList),
      ⟨.ok, image (State.readArray ⟨γ, [], [], δ⟩).1 γ.idx γ.pos⟩, fun p q => rfl⟩
  | restore D =>
    by_cases h : D.length = 627
    · exact ⟨⟨written (imageArray D h), D[624], joinPos D[625] D[626]⟩, δ, ⟨.ok, []⟩, fun p q => by
        simp [exec, execRestore, unimage, h, State.writeArray, State.writeIdx, State.writePos, State.respond]⟩
    · exact ⟨γ, δ, ⟨.invalidState, []⟩, fun p q => by
        simp [exec, execRestore, unimage, h, State.raise, State.respond]⟩
  | next =>
    have hemit : ∀ (γ : GenState) (δ : Draws), ∃ g d r, ∀ p q, State.emit ⟨γ, p, q, δ⟩ = ⟨g, p, q ++ [r], d⟩ := by
      intro γ δ
      cases h : (γ.mt[γ.idx.toNat]?).join with
      | some w =>
        exact ⟨⟨γ.mt, γ.idx + 1#32, γ.pos + 1#64⟩, δ, ⟨.ok, [temper w]⟩, fun p q => by
          simp only [State.emit, State.readWord, h]; rfl⟩
      | none =>
        exact ⟨⟨γ.mt, γ.idx + 1#32, γ.pos + 1#64⟩, δ.advance 1, ⟨.ok, [temper δ.word]⟩, fun p q => by
          simp only [State.emit, State.readWord, h]; rfl⟩
    have hregen : ∀ (γ : GenState) (δ : Draws), ∃ g d, ∀ p q,
        State.regenerateIfExhausted ⟨γ, p, q, δ⟩ = ⟨g, p, q, d⟩ := by
      intro γ δ
      rcases Nat.lt_or_ge γ.idx.toNat 624 with h | h
      · exact ⟨γ, δ, fun p q => State.regenerateIfExhausted_of_lt h⟩
      · exact ⟨⟨written (twist (State.readArray ⟨γ, [], [], δ⟩).1), 0#32, γ.pos⟩, δ.advance (unwrittenCount γ.mt.toList),
          fun p q => by
            rw [State.regenerateIfExhausted_of_le h]
            simp only [State.regenerate, State.readArray, State.writeArray, State.writeIdx]⟩
    have hseed : ∃ g, ∀ p q, State.seedIfNeverSeeded ⟨γ, p, q, δ⟩ = ⟨g, p, q, δ⟩ := by
      by_cases h : γ.idx = 625#32
      · exact ⟨⟨written (seedInit defaultSeed), 624#32, 0#64⟩, fun p q => by
          rw [State.seedIfNeverSeeded_of_eq h]; rfl⟩
      · exact ⟨γ, fun p q => State.seedIfNeverSeeded_of_ne h⟩
    obtain ⟨g1, h1⟩ := hseed
    obtain ⟨g2, d2, h2⟩ := hregen g1 δ
    obtain ⟨g3, d3, r, h3⟩ := hemit g2 d2
    exact ⟨g3, d3, r, fun p q => by simp only [exec, execNext, h1, h2, h3]⟩

/-- The same of a command as the block accepts it, decode's errors included. -/
theorem accept_frame (c : Command) (γ : GenState) (δ : Draws) :
    ∃ g d r, ∀ p q, accept c ⟨γ, p, q, δ⟩ = .next ⟨g, p, q ++ [r], d⟩ := by
  cases h : decode c with
  | error e => exact ⟨γ, δ, ⟨errorStatus e, []⟩, fun p q => by rw [accept_of_error h]; rfl⟩
  | ok i =>
    obtain ⟨g, d, r, hi⟩ := exec_frame i γ δ
    exact ⟨g, d, r, fun p q => by rw [accept_of_ok h, hi]⟩

/-- The same of a sequence of commands: one response each, in order. -/
theorem acceptAll_frame (cs : List Command) (γ : GenState) (δ : Draws) :
    ∃ g d rs, rs.length = cs.length ∧ ∀ p q, acceptAll cs ⟨γ, p, q, δ⟩ = .next ⟨g, p, q ++ rs, d⟩ := by
  induction cs generalizing γ δ with
  | nil => exact ⟨γ, δ, [], rfl, fun p q => by simp⟩
  | cons c cs ih =>
    obtain ⟨g, d, r, h⟩ := accept_frame c γ δ
    obtain ⟨g', d', rs, hl, h'⟩ := ih g d
    exact ⟨g', d', r :: rs, by simp [hl], fun p q => by rw [acceptAll_cons (h p q), h']; simp⟩

/-- No command changes which source of free values its block reads from. -/
theorem exec_keeps_source {i : Instr} {s t : State} (h : exec i s = .next t) : t.draws.source = s.draws.source := by
  cases i with
  | seed w => cases h; rfl
  | seedDef => cases h; rfl
  | pos => cases h; rfl
  | save => cases h; rfl
  | restore D =>
    simp only [exec, execRestore] at h
    split at h <;> cases h <;> rfl
  | next =>
    cases h
    rw [State.emit_source, State.regenerateIfExhausted_source, State.seedIfNeverSeeded_draws]

/-- The same of a command as the block accepts it. -/
theorem accept_keeps_source {c : Command} {s t : State} (h : accept c s = .next t) :
    t.draws.source = s.draws.source := by
  cases hd : decode c with
  | error e => rw [accept_of_error hd] at h; cases h; rfl
  | ok i => rw [accept_of_ok hd] at h; exact exec_keeps_source h

/-- On a wholly written array a command reads no free value: it depends on the architectural state alone, takes no draw
and leaves the array wholly written. -/
theorem exec_written (i : Instr) {γ : GenState} (hw : γ.allWritten = true) :
    ∃ g r, g.allWritten = true ∧ ∀ p q δ, exec i ⟨γ, p, q, δ⟩ = .next ⟨g, p, q ++ [r], δ⟩ := by
  obtain ⟨A, hA⟩ := GenState.exists_written hw
  cases i with
  | seed w => exact ⟨⟨written (seedInit w), 624#32, 0#64⟩, ⟨.ok, []⟩, GenState.allWritten_of_written rfl, fun p q δ => rfl⟩
  | seedDef =>
    exact ⟨⟨written (seedInit defaultSeed), 624#32, 0#64⟩, ⟨.ok, []⟩, GenState.allWritten_of_written rfl, fun p q δ => rfl⟩
  | pos => exact ⟨γ, ⟨.ok, [posLow γ.pos, posHigh γ.pos]⟩, hw, fun p q δ => rfl⟩
  | save =>
    exact ⟨γ, ⟨.ok, image A γ.idx γ.pos⟩, hw, fun p q δ => by
      simp only [exec, execSave, State.readArray_written (s := ⟨γ, p, q, δ⟩) hA, State.respond]⟩
  | restore D =>
    by_cases h : D.length = 627
    · exact ⟨⟨written (imageArray D h), D[624], joinPos D[625] D[626]⟩, ⟨.ok, []⟩, GenState.allWritten_of_written rfl,
        fun p q δ => by
          simp [exec, execRestore, unimage, h, State.writeArray, State.writeIdx, State.writePos, State.respond]⟩
    · exact ⟨γ, ⟨.invalidState, []⟩, hw, fun p q δ => by
        simp [exec, execRestore, unimage, h, State.raise, State.respond]⟩
  | next =>
    have hemit : ∀ (γ : GenState) (A : WordArray), γ.mt = written A → γ.idx.toNat < 624 →
        ∃ g r, g.allWritten = true ∧ ∀ p q δ, State.emit ⟨γ, p, q, δ⟩ = ⟨g, p, q ++ [r], δ⟩ := fun γ A hA hi =>
      ⟨⟨written A, γ.idx + 1#32, γ.pos + 1#64⟩, ⟨.ok, [temper A[γ.idx.toNat]]⟩, GenState.allWritten_of_written rfl,
        fun p q δ => State.emit_written (s := ⟨γ, p, q, δ⟩) hA hi⟩
    have hregen : ∀ (γ : GenState) (A : WordArray), γ.mt = written A → ∃ (g : GenState) (B : WordArray),
        g.mt = written B ∧ g.idx.toNat < 624 ∧
          ∀ p q δ, State.regenerateIfExhausted ⟨γ, p, q, δ⟩ = ⟨g, p, q, δ⟩ := by
      intro γ A hA
      rcases Nat.lt_or_ge γ.idx.toNat 624 with h | h
      · exact ⟨γ, A, hA, h, fun p q δ => State.regenerateIfExhausted_of_lt h⟩
      · exact ⟨⟨written (twist A), 0#32, γ.pos⟩, twist A, rfl, (by decide : (0#32).toNat < 624), fun p q δ => by
          rw [State.regenerateIfExhausted_of_le h, State.regenerate_written (s := ⟨γ, p, q, δ⟩) hA]⟩
    have hseed : ∃ (g : GenState) (B : WordArray), g.mt = written B ∧
        ∀ p q δ, State.seedIfNeverSeeded ⟨γ, p, q, δ⟩ = ⟨g, p, q, δ⟩ := by
      by_cases h : γ.idx = 625#32
      · exact ⟨⟨written (seedInit defaultSeed), 624#32, 0#64⟩, _, rfl, fun p q δ => by
          rw [State.seedIfNeverSeeded_of_eq h]; rfl⟩
      · exact ⟨γ, A, hA, fun p q δ => State.seedIfNeverSeeded_of_ne h⟩
    obtain ⟨g1, A1, hA1, h1⟩ := hseed
    obtain ⟨g2, A2, hA2, hi2, h2⟩ := hregen g1 A1 hA1
    obtain ⟨g3, r, hw3, h3⟩ := hemit g2 A2 hA2 hi2
    exact ⟨g3, r, hw3, fun p q δ => by simp only [exec, execNext, h1, h2, h3]⟩

/-- The same of a sequence of commands. -/
theorem acceptAll_written (cs : List Command) {γ : GenState} (hw : γ.allWritten = true) :
    ∃ g rs, g.allWritten = true ∧ rs.length = cs.length ∧
      ∀ p q δ, acceptAll cs ⟨γ, p, q, δ⟩ = .next ⟨g, p, q ++ rs, δ⟩ := by
  induction cs generalizing γ with
  | nil => exact ⟨γ, [], hw, rfl, fun p q δ => by simp⟩
  | cons c cs ih =>
    have hc : ∃ g r, g.allWritten = true ∧ ∀ p q δ, accept c ⟨γ, p, q, δ⟩ = .next ⟨g, p, q ++ [r], δ⟩ := by
      cases h : decode c with
      | error e => exact ⟨γ, ⟨errorStatus e, []⟩, hw, fun p q δ => by rw [accept_of_error h]; rfl⟩
      | ok i =>
        obtain ⟨g, r, hg, hi⟩ := exec_written i hw
        exact ⟨g, r, hg, fun p q δ => by rw [accept_of_ok h, hi]⟩
    obtain ⟨g, r, hg, h⟩ := hc
    obtain ⟨g', rs, hw', hl, h'⟩ := ih hg
    exact ⟨g', r :: rs, hw', by simp [hl], fun p q δ => by rw [acceptAll_cons (h p q δ), h']; simp⟩

end Sys2Proof.Machine
end

