-- ==== Sys2Proof/Laws/Core.lean ====
section
/-! SUPPORT. The host's interface runs the model's step. -/

namespace Sys2Proof.Machine

theorem core_step (s : State) : core.step s = step s := rfl

theorem core_run_zero (s : State) : Host.Core.run core 0 s = .next s := rfl

theorem core_run_succ {s t : State} (h : step s = .next t) (k : Nat) :
    Host.Core.run core (k + 1) s = Host.Core.run core k t := by
  have hs : core.step s = .next t := (core_step s).trans h
  simp only [Host.Core.run, hs]

end Sys2Proof.Machine
end

