-- ==== Sys2Proof/Laws/Datapath.lean ====
section
/-! SUPPORT. The seeding and twist datapaths, word by word: which step fixes a word of the twisted array. -/

namespace Sys2Proof.Machine

theorem seedInit_toList (s : Word) : (seedInit s).toList = s :: seedFrom s 1 623 := rfl

@[simp] theorem seedInit_getElem_zero (s : Word) : (seedInit s)[0] = s := by
  have h : (seedInit s).toList[0]? = some s := by rw [seedInit_toList]; rfl
  simpa using h

/-- The words of a seed after word 0 are those of the recurrence (stated with `?`, so that no length is computed). -/
theorem seedInit_getElem?_succ (s : Word) (j : Nat) : (seedInit s)[j + 1]? = (seedFrom s 1 623)[j]? := by
  rw [← Vector.getElem?_toList, seedInit_toList, List.getElem?_cons_succ]

/-- Consecutive words of the recurrence (R67, R68). -/
theorem seedFrom_getElem?_succ (before : Word) (i k j : Nat) (h : j + 1 < k) :
    (seedFrom before i k)[j + 1]? = ((seedFrom before i k)[j]?).map fun w => seedNext w (i + j + 1) := by
  induction j generalizing before i k with
  | zero =>
    obtain ⟨k, rfl⟩ : ∃ m, k = m + 2 := ⟨k - 2, by omega⟩
    simp [seedFrom]
  | succ j ih =>
    obtain ⟨k, rfl⟩ : ∃ m, k = m + 1 := ⟨k - 1, by omega⟩
    simp only [seedFrom, List.getElem?_cons_succ]
    rw [ih (seedNext before i) (i + 1) k (by omega), show i + 1 + j + 1 = i + (j + 1) + 1 by omega]

/-- A twist step leaves every other word alone. -/
theorem twistStep_getElem_ne (A : WordArray) (kk : Fin 624) {j : Nat} (hj : j < 624) (hne : kk.val ≠ j) :
    (twistStep A kk)[j] = A[j] := by
  simp [twistStep, hne]

theorem twistUpto_succ (A : WordArray) {k : Nat} (h : k < 624) :
    twistUpto A (k + 1) = twistStep (twistUpto A k) ⟨k, h⟩ := by
  simp [twistUpto, h]

/-- The first `k` steps leave word `k` and every later word as it was. -/
theorem twistUpto_getElem_of_le (A : WordArray) {k j : Nat} (hk : k ≤ j) (hj : j < 624) :
    (twistUpto A k)[j] = A[j] := by
  induction k with
  | zero => rfl
  | succ k ih =>
    rw [twistUpto_succ A (by omega), twistStep_getElem_ne _ _ hj (by simp; omega), ih (by omega)]

/-- Word `j` has its final value after step `j`. -/
theorem twistUpto_getElem_of_lt (A : WordArray) {k j : Nat} (hj : j < k) (hk : k ≤ 624) :
    (twistUpto A k)[j] = (twistUpto A (j + 1))[j] := by
  induction k with
  | zero => omega
  | succ k ih =>
    obtain rfl | hlt := Nat.eq_or_lt_of_le (Nat.le_of_lt_succ hj)
    · rfl
    · rw [twistUpto_succ A (by omega), twistStep_getElem_ne _ _ (by omega) (by simp; omega), ih hlt (by omega)]

end Sys2Proof.Machine
end

