-- ==== Sys2Proof/Laws/Decode.lean ====
section
/-! SUPPORT. All that decode can do, said once, and how a command word is made of its two fields. -/

namespace Sys2Proof

theorem Command.op_mk (W : Word) (D : List Word) : Command.op ⟨W, D⟩ = W.extractLsb' 0 3 := rfl

theorem Command.rsvd_mk (W : Word) (D : List Word) : Command.rsvd ⟨W, D⟩ = W.extractLsb' 3 29 := rfl

/-- A command word whose reserved field is 0 is its operation code (R53). -/
theorem Command.word_of_rsvd_zero {c : Command} (h : c.rsvd = 0#29) : c.word = c.op.setWidth 32 := by
  have h2 := congrArg BitVec.toNat h
  apply BitVec.eq_of_toNat_eq
  simp [Command.rsvd, Command.op, BitVec.extractLsb'_toNat, Nat.shiftRight_eq_div_pow] at h2 ⊢
  have := c.word.isLt
  omega

/-- The four ways decode ends: a set reserved bit, a reserved operation code, a wrong operand count, a command (R58). -/
theorem decode_cases (c : Command) :
    (c.rsvd ≠ 0#29 ∧ decode c = .error .reservedOp) ∨
    (c.rsvd = 0#29 ∧ (c.op = 0b110#3 ∨ c.op = 0b111#3) ∧ decode c = .error .reservedOp) ∨
    (c.rsvd = 0#29 ∧ ¬(c.op = 0b110#3 ∨ c.op = 0b111#3) ∧
      (c.op ≠ 0b100#3 ∧ c.operands.length ≠ expectedLen c.op) ∧ decode c = .error .badOperand) ∨
    (c.rsvd = 0#29 ∧ ¬(c.op = 0b110#3 ∨ c.op = 0b111#3) ∧
      ¬(c.op ≠ 0b100#3 ∧ c.operands.length ≠ expectedLen c.op) ∧ decode c = .ok (selectInstr c.op c.operands)) := by
  unfold decode
  by_cases h1 : c.rsvd ≠ 0#29
  · exact .inl ⟨h1, if_pos h1⟩
  · rw [if_neg h1]
    by_cases h2 : c.op = 0b110#3 ∨ c.op = 0b111#3
    · exact .inr (.inl ⟨not_not.mp h1, h2, if_pos h2⟩)
    · rw [if_neg h2]
      by_cases h3 : c.op ≠ 0b100#3 ∧ c.operands.length ≠ expectedLen c.op
      · exact .inr (.inr (.inl ⟨not_not.mp h1, h2, h3, if_pos h3⟩))
      · exact .inr (.inr (.inr ⟨not_not.mp h1, h2, h3, if_neg h3⟩))

/-- The eight operation codes. -/
theorem opcode_cases (o : BitVec 3) : o = 0 ∨ o = 1 ∨ o = 2 ∨ o = 3 ∨ o = 4 ∨ o = 5 ∨ o = 6 ∨ o = 7 := by
  revert o
  decide

end Sys2Proof
end

