-- ==== Sys2Proof/Laws/Operands.lean ====
section
/-! SUPPORT. The operand forms as numbers and as list entries (R41, R100). -/

namespace Sys2Proof.Machine

theorem posLow_toNat (p : Position) : (posLow p).toNat = p.toNat % 2 ^ 32 := by
  simp only [posLow, BitVec.extractLsb'_toNat, Nat.shiftRight_zero]

theorem posHigh_toNat (p : Position) : (posHigh p).toNat = p.toNat / 2 ^ 32 := by
  have := p.isLt
  rw [posHigh, BitVec.extractLsb'_toNat, Nat.shiftRight_eq_div_pow, Nat.mod_eq_of_lt]
  omega

theorem joinPos_toNat (lo hi : Word) : (joinPos lo hi).toNat = hi.toNat * 2 ^ 32 + lo.toNat := by
  have hl := lo.isLt
  have hh := hi.isLt
  rw [joinPos, BitVec.toNat_add, BitVec.toNat_mul, BitVec.toNat_setWidth, BitVec.toNat_setWidth, BitVec.toNat_ofNat]
  generalize lo.toNat = l at *
  generalize hi.toNat = h at *
  omega

theorem joinPos_posLow_posHigh (p : Position) : joinPos (posLow p) (posHigh p) = p := by
  apply BitVec.eq_of_toNat_eq
  rw [joinPos_toNat, posLow_toNat, posHigh_toNat]
  exact Nat.div_add_mod' p.toNat (2 ^ 32)

theorem posLow_joinPos (lo hi : Word) : posLow (joinPos lo hi) = lo := by
  apply BitVec.eq_of_toNat_eq
  rw [posLow_toNat, joinPos_toNat, Nat.mul_add_mod_of_lt lo.isLt]

theorem posHigh_joinPos (lo hi : Word) : posHigh (joinPos lo hi) = hi := by
  apply BitVec.eq_of_toNat_eq
  rw [posHigh_toNat, joinPos_toNat, Nat.mul_comm, Nat.mul_add_div (by decide), Nat.div_eq_of_lt lo.isLt, Nat.add_zero]

theorem image_getElem?_array (A : WordArray) (i : Word) (p : Position) {k : Nat} (h : k < 624) :
    (image A i p)[k]? = A[k]? := by
  rw [image, List.getElem?_append_left (by simpa using h), Vector.getElem?_toList]

theorem image_getElem?_tail (A : WordArray) (i : Word) (p : Position) (k : Nat) :
    (image A i p)[624 + k]? = [i, posLow p, posHigh p][k]? := by
  rw [image, List.getElem?_append_right (by simp), Vector.length_toList, Nat.add_sub_cancel_left]

end Sys2Proof.Machine
end

