-- ==== Sys2Proof/Laws/PerInstr.lean ====
section
/-! SUPPORT. Statements about every instruction as syntax, one lemma per constructor. -/

namespace Sys2Proof.Laws

/-- The command an instruction is encoded to is well formed: its word is one of the six and its operand count fits. -/
def EncodedWellFormed.Statement (i : Instr) : Prop := (encode i).wf = true

theorem EncodedWellFormed.seed (s : Word) : EncodedWellFormed.Statement (.seed s) := by
  simp [EncodedWellFormed.Statement, encode, Command.wf, Command.reservedClear, Command.opAssigned, Command.countFits]

theorem EncodedWellFormed.seedDef : EncodedWellFormed.Statement .seedDef := by
  simp [EncodedWellFormed.Statement, encode, Command.wf, Command.reservedClear, Command.opAssigned, Command.countFits]

theorem EncodedWellFormed.next : EncodedWellFormed.Statement .next := by
  simp [EncodedWellFormed.Statement, encode, Command.wf, Command.reservedClear, Command.opAssigned, Command.countFits]

theorem EncodedWellFormed.save : EncodedWellFormed.Statement .save := by
  simp [EncodedWellFormed.Statement, encode, Command.wf, Command.reservedClear, Command.opAssigned, Command.countFits]

theorem EncodedWellFormed.restore (D : List Word) : EncodedWellFormed.Statement (.restore D) := by
  simp [EncodedWellFormed.Statement, encode, Command.wf, Command.reservedClear, Command.opAssigned, Command.countFits]

theorem EncodedWellFormed.pos : EncodedWellFormed.Statement .pos := by
  simp [EncodedWellFormed.Statement, encode, Command.wf, Command.reservedClear, Command.opAssigned, Command.countFits]

end Sys2Proof.Laws
end

