-- ==== Sys2Proof/Tests/Slice0.lean ====
section
/-! SUPPORT. The model's own tests. Every expected value is copied from spec/ (the vectors of 95_test_vectors.md and of
the section files), never from the model. Then the witnesses: for each statement with hypotheses, a concrete state and
operands that meet them. -/

namespace Sys2Proof.Tests

open Sys2Proof Sys2Proof.Machine

/-! ### Helpers -/

/-- A block holding the array `A`, with nothing at its port and nothing sent. -/
def blockAt (A : WordArray) (i : Word) (p : Position) : State := { State.reset with gen := ⟨written A, i, p⟩ }

/-- The block after `SEED 4537` (V1.3). -/
def seeded : State := blockAt (seedInit 4537#32) 624#32 0#64

def zeros : WordArray := ⟨⟨List.replicate 624 0#32⟩, List.length_replicate⟩

/-- An image of 627 zero words. -/
def zeroImage : List Word := List.replicate 627 0#32

/-- `(IDX, POS, response)` after a command, in numbers. -/
def shown (o : Host.Outcome State Fault Refusal) : Option (Nat × Nat × Option (Nat × List Nat)) :=
  match o with
  | .next s => some (s.gen.idx.toNat, s.gen.pos.toNat,
      s.sent.getLast?.map fun r => (r.status.code.toNat, r.words.map BitVec.toNat))
  | _ => none

/-- Entries of the last response, by index. -/
def shownWords (o : Host.Outcome State Fault Refusal) (l : List Nat) : List (Option Nat) :=
  match o with
  | .next s => l.map fun k => (((s.sent.getLast?.map Response.words).getD [])[k]?).map BitVec.toNat
  | _ => []

/-- Words of the array after a command, by index. -/
def shownArray (o : Host.Outcome State Fault Refusal) (l : List Nat) : List (Option Nat) :=
  match o with
  | .next s => l.map fun k => (s.gen.mt[k]?.join).map BitVec.toNat
  | _ => []

def wordsAt (A : WordArray) (l : List Nat) : List (Option Nat) := l.map fun k => A[k]?.map BitVec.toNat

/-! ### Well-formedness: an ill-formed command for each check, which the check refuses -/

theorem test_wf_refuses_reserved_bits : Command.reservedClear ⟨0x00000008#32, []⟩ = false ∧
    Command.wf ⟨0x00000008#32, []⟩ = false := by decide

theorem test_wf_refuses_reserved_op : Command.opAssigned ⟨0x00000006#32, []⟩ = false ∧
    Command.opAssigned ⟨0x00000007#32, [0#32]⟩ = false ∧ Command.wf ⟨0x00000006#32, []⟩ = false := by decide

theorem test_wf_refuses_operand_count : Command.countFits ⟨0x00000000#32, []⟩ = false ∧
    Command.countFits ⟨0x00000002#32, [5#32]⟩ = false ∧ Command.wf ⟨0x00000002#32, [5#32]⟩ = false := by decide

theorem test_wf_takes_restore_at_any_count : Command.wf ⟨0x00000004#32, []⟩ = true ∧
    Command.wf ⟨0x00000004#32, [1#32, 2#32]⟩ = true := by decide

/-! ### Decode: words written out bit by bit from R53 and R54, `OP` in bits 2:0 -/

theorem test_decode_seed :
    decode ⟨0b00000000000000000000000000000000#32, [0x00001571#32]⟩ = .ok (.seed 5489#32) := by decide
theorem test_decode_seeddef : decode ⟨0b00000000000000000000000000000001#32, []⟩ = .ok .seedDef := by decide
theorem test_decode_next : decode ⟨0b00000000000000000000000000000010#32, []⟩ = .ok .next := by decide
theorem test_decode_save : decode ⟨0b00000000000000000000000000000011#32, []⟩ = .ok .save := by decide
theorem test_decode_restore :
    decode ⟨0b00000000000000000000000000000100#32, [7#32, 9#32]⟩ = .ok (.restore [7#32, 9#32]) := by decide
theorem test_decode_pos : decode ⟨0b00000000000000000000000000000101#32, []⟩ = .ok .pos := by decide

/-- V6.1 to V6.5, V6.9 to V6.15: what decode refuses, and under which name. -/
theorem test_decode_refuses :
    decode ⟨0x00000008#32, []⟩ = .error .reservedOp ∧ decode ⟨0x00000006#32, []⟩ = .error .reservedOp ∧
    decode ⟨0x00000007#32, [0#32, 0#32]⟩ = .error .reservedOp ∧ decode ⟨0x00000000#32, []⟩ = .error .badOperand ∧
    decode ⟨0x00000000#32, [0#32, 0#32]⟩ = .error .badOperand ∧ decode ⟨0x00000002#32, [5#32]⟩ = .error .badOperand ∧
    decode ⟨0x00000005#32, [0#32]⟩ = .error .badOperand ∧ decode ⟨0x00000003#32, [0#32]⟩ = .error .badOperand ∧
    decode ⟨0x00000001#32, [4537#32]⟩ = .error .badOperand ∧ decode ⟨0x80000002#32, []⟩ = .error .reservedOp ∧
    decode ⟨0xFFFFFFFF#32, []⟩ = .error .reservedOp ∧
    decode ⟨0x0000000C#32, [0#32, 0#32, 0#32, 0#32, 0#32]⟩ = .error .reservedOp := by decide

theorem test_decode_table_word :
    decodeTableWord 32 0 = some (.seed 0#32) ∧ decodeTableWord 32 2 = some .next ∧ decodeTableWord 32 6 = none ∧
    decodeTableWord 64 (7 * 2 ^ 32) = some (.seed 7#32) := by decide

/-! ### SEED, SEEDDEF -/

/-- R71, R75: words of `SEED_INIT`. -/
theorem test_seed_words :
    wordsAt (seedInit 0#32) [0, 1, 2, 3] = [some 0x00000000, some 0x00000001, some 0x6C078967, some 0x714ACB41] ∧
    wordsAt (seedInit 0x80000000#32) [0, 1, 2, 3] =
      [some 0x80000000, some 0x580F12CB, some 0x8A8683B4, some 0x05885CD1] ∧
    wordsAt (seedInit 0xFFFFFFFF#32) [0, 1, 2, 3] =
      [some 0xFFFFFFFF, some 0x4FE1DA6D, some 0xEAF2F89E, some 0xC1331AF4] ∧
    wordsAt (seedInit 4537#32) [1, 5, 622, 623] =
      [some 0x9191FEFE, some 0xFD9B7B14, some 0xD5C3AA95, some 0xFE96959D] := by decide +kernel

/-- R69: SEED's cursor, position and response, and its array, from a block in mid-stream. -/
theorem test_seed_step :
    shown (step ((blockAt zeros 7#32 9#64).withFetchWord 64 (1 * 2 ^ 32))) = some (624, 0, some (0, [])) ∧
    shownArray (step ((blockAt zeros 7#32 9#64).withFetchWord 64 (1 * 2 ^ 32))) [0, 1, 2] =
      [some 0x00000001, some 0x6C078966, some 0xDD5254A5] := by decide +kernel

/-- R72, V1.4: SEEDDEF from reset. -/
theorem test_seeddef_step :
    shown (step (State.reset.withFetchWord 32 1)) = some (624, 0, some (0, [])) ∧
    shownArray (step (State.reset.withFetchWord 32 1)) [0, 1, 623] =
      [some 0x000011B9, some 0x9191FEFE, some 0xFE96959D] := by decide +kernel

/-! ### NEXT -/

/-- The datapath of NEXT: the tempering vectors of R85, and the first words of `TWIST(SEED_INIT(4537))` (R81, V2.2),
word 227 being the first that reads a rewritten word. -/
theorem test_next_datapath :
    [0x00000001#32, 0x000011B9#32, 0x12345678#32, 0x55555555#32, 0xAAAAAAAA#32, 0xFFFFFFFF#32].map temper =
      [0x00400091#32, 0x228C4D98#32, 0x2B7E4A2D#32, 0x1CF5AE42#32, 0x7315B5BA#32, 0x6FE01BF8#32] ∧
    wordsAt (twist (seedInit 4537#32)) [0, 1] = [some 0xF9B17479, some 0x5505BD30] ∧
    wordsAt (twistUpto (seedInit 4537#32) 228) [226, 227] = [some 0x6EF5B948, some 0x60866BB0] := by decide +kernel

/-- V4.1, V4.3, V4.7, V4.8, V4.10: one draw from reset, after `SEED 5489`, from a cursor out of range (`POS` wraps),
from the last word (no twist), and from a restored sentinel. -/
theorem test_next_step :
    shown (step (State.reset.withFetchWord 32 2)) = some (1, 1, some (0, [1288459236])) ∧
    shown (exec .next (blockAt (seedInit 5489#32) 624#32 0#64)) = some (1, 1, some (0, [3499211612])) ∧
    shown (exec .next (blockAt (seedInit 4537#32) 1000#32 0xFFFFFFFFFFFFFFFF#64)) =
      some (1, 0, some (0, [1288459236])) ∧
    shown (exec .next (blockAt (seedInit 4537#32) 623#32 0#64)) = some (624, 1, some (0, [1517246292])) ∧
    shown (exec .next (blockAt zeros 625#32 88#64)) = some (1, 1, some (0, [1288459236])) := by
  refine ⟨?_, ?_, ?_, ?_, ?_⟩ <;> decide +kernel

/-! ### SAVE, RESTORE, POS -/

/-- R95, first row: SAVE after `SEED 4537`. -/
theorem test_save_seeded :
    shownWords (step (seeded.withFetchWord 32 3)) [0, 1, 623, 624, 625, 626, 627] =
      [some 0x000011B9, some 0x9191FEFE, some 0xFE96959D, some 624, some 0, some 0, none] := by decide +kernel

/-- R94, V5.5: SAVE out of reset; its words 0 to 623 are not compared. -/
theorem test_save_unseeded :
    shownWords (step (State.reset.withFetchWord 32 3)) [624, 625, 626, 627] = [some 625, some 0, some 0, none] := by
  decide +kernel

/-- V6.6 to V6.8: RESTORE of 626, 0 and 628 words is INVALID_STATE and changes nothing. -/
theorem test_restore_wrong_count :
    shown (exec (.restore (List.replicate 626 0#32)) (blockAt zeros 1#32 1#64)) = some (1, 1, some (1, [])) ∧
    shown (exec (.restore []) (blockAt zeros 1#32 1#64)) = some (1, 1, some (1, [])) ∧
    shown (exec (.restore (List.replicate 628 0#32)) (blockAt zeros 1#32 1#64)) = some (1, 1, some (1, [])) := by
  refine ⟨?_, ?_, ?_⟩ <;> decide +kernel

/-- P6: RESTORE of an image with index 1000 and position 2^64 - 1. -/
theorem test_restore_image :
    shown (exec (.restore ((seedInit 4537#32).toList ++ [1000#32, 0xFFFFFFFF#32, 0xFFFFFFFF#32])) State.reset) =
      some (1000, 2 ^ 64 - 1, some (0, [])) ∧
    shownArray (exec (.restore ((seedInit 4537#32).toList ++ [1000#32, 0xFFFFFFFF#32, 0xFFFFFFFF#32])) State.reset)
      [0, 1, 623] = [some 0x000011B9, some 0x9191FEFE, some 0xFE96959D] := by decide +kernel

/-- R100: POS after 2^32 draws is `(0, 1)`, the low word first; after reset `(0, 0)`. -/
theorem test_pos_step :
    shown (step ((blockAt zeros 1#32 0x100000000#64).withFetchWord 32 5)) = some (1, 2 ^ 32, some (0, [0, 1])) ∧
    shown (step (State.reset.withFetchWord 32 5)) = some (625, 0, some (0, [0, 0])) := by decide +kernel

/-! ### The machine -/

/-- R134, R127, R59: an overlap faults, a reset during a command sends nothing, a reserved word is answered with 2. -/
theorem test_port_events :
    step { State.reset with port := [.overlap ⟨2#32, []⟩ ⟨5#32, []⟩] } = .fault .protocolViolation ∧
    shown (step { seeded with port := [.resetDuring ⟨2#32, []⟩] }) = some (625, 0, none) ∧
    shown (step { seeded with port := [.command ⟨8#32, []⟩] }) = some (624, 0, some (2, [])) ∧
    shown (step { seeded with port := [.command ⟨2#32, [5#32]⟩] }) = some (624, 0, some (3, [])) := by
  refine ⟨rfl, ?_, ?_, ?_⟩ <;> decide +kernel

/-! ### Witnesses: the hypotheses of each statement are met together -/

theorem seeded_written : seeded.gen.allWritten = true := GenState.allWritten_of_written (A := seedInit 4537#32) rfl

theorem witness_wrongOperandCountsAreAnswered :
    ([] : List Word).length ≠ 1 ∧ [0#32, 0#32].length ≠ 1 ∧ ((5#32 : Word) = 5#32 ∧ [0#32].length ≠ 0) ∧
    (List.replicate 626 0#32).length ≠ 627 ∧ (List.replicate 628 0#32).length ≠ 627 ∧ zeroImage.length = 627 := by
  decide +kernel

theorem witness_errorsAreNotSticky :
    accept ⟨0x00000008#32, []⟩ seeded = .next (seeded.raise .reservedOp) ∧
    (seeded.raise .reservedOp).sent = seeded.sent ++ [⟨.reservedOp, []⟩] ∧ Status.reservedOp ≠ Status.ok :=
  ⟨rfl, rfl, by decide⟩

/-- Both ends of the range of `i`. -/
theorem witness_seedArrayFollowsTheRecurrence :
    1 ≤ 1 ∧ 1 ≤ 623 ∧ (seedInit 4537#32)[1 - 1]?.isSome = true ∧ (seedInit 4537#32)[1]?.isSome = true ∧
    623 ≤ 623 ∧ (seedInit 4537#32)[623 - 1]?.isSome = true ∧ (seedInit 4537#32)[623]?.isSome = true := by
  decide +kernel

theorem witness_seedReplacesTheWholeState :
    [0#32, 0#32].length ≠ 1 ∧ (∃ t, exec (.seed 0#32) State.reset = .next t) ∧
    ∃ t, exec (.seed 4537#32) State.reset = .next t := ⟨by decide, ⟨_, rfl⟩, ⟨_, rfl⟩⟩

theorem witness_twistStepRewritesOneWord :
    zeros[((623 : Fin 624).val + 1) % 624]? = some 0#32 ∧ zeros[((623 : Fin 624).val + 397) % 624]? = some 0#32 := by
  decide +kernel

/-- Both ends of each of the three ranges of `kk`. -/
theorem witness_twistReadsWordsItRewrote :
    (zeros[0]? = some 0#32 ∧ zeros[0 + 1]? = some 0#32 ∧ zeros[0 + 397]? = some 0#32) ∧
    (zeros[226]? = some 0#32 ∧ zeros[226 + 1]? = some 0#32 ∧ zeros[226 + 397]? = some 0#32) ∧
    (zeros[227]? = some 0#32 ∧ zeros[227 + 1]? = some 0#32 ∧ (twist zeros)[227 - 227]?.isSome = true) ∧
    (zeros[622]? = some 0#32 ∧ zeros[622 + 1]? = some 0#32 ∧ (twist zeros)[622 - 227]?.isSome = true) ∧
    (zeros[623]? = some 0#32 ∧ (twist zeros)[623]?.isSome = true) := by
  have at_zero : ∀ k, k < 624 → zeros[k]? = some 0#32 := by decide +kernel
  have some_word : ∀ k, k < 624 → (twist zeros)[k]?.isSome = true := fun k h => by
    rw [Vector.getElem?_eq_getElem h]; rfl
  refine ⟨⟨?_, ?_, ?_⟩, ⟨?_, ?_, ?_⟩, ⟨?_, ?_, ?_⟩, ⟨?_, ?_, ?_⟩, ?_, ?_⟩
  all_goals first | exact at_zero _ (by decide) | exact some_word _ (by decide)

theorem witness_twistIgnoresLowBitsOfWordZero :
    (∀ j : Fin 624, j ≠ 0 → zeros[j] = (zeros.set 0 0x7FFFFFFF#32)[j]) ∧
    zeros[0].getLsbD 31 = (zeros.set 0 0x7FFFFFFF#32)[0].getLsbD 31 ∧ zeros[0] ≠ (zeros.set 0 0x7FFFFFFF#32)[0] := by
  refine ⟨fun j hj => ?_, by decide +kernel, by decide +kernel⟩
  have h0 : (0 : Nat) ≠ j.val := fun e => hj (Fin.ext e.symm)
  simp only [Fin.getElem_fin, Vector.getElem_set_ne _ _ h0]

theorem witness_allZeroArrayStaysAllZero :
    (∀ i : Fin 624, (blockAt zeros 624#32 0#64).gen.mt[i] = some 0#32) ∧
    (blockAt zeros 624#32 0#64).gen.idx ≠ 625#32 := by
  refine ⟨fun i => ?_, by show 624#32 ≠ 625#32; decide⟩
  revert i
  decide +kernel

theorem witness_temper : ∃ y0 y1 y2 y3 y4 : Word,
    y1 = y0 ^^^ (y0 >>> 11) ∧ y2 = y1 ^^^ ((y1 <<< 7) &&& 0x9d2c5680#32) ∧
    y3 = y2 ^^^ ((y2 <<< 15) &&& 0xefc60000#32) ∧ y4 = y3 ^^^ (y3 >>> 18) :=
  ⟨0xFFFFFFFF#32, _, _, _, _, rfl, rfl, rfl, rfl⟩

theorem witness_temperMasksClearTheWideBits : ∃ (y0 : Word) (y1 y2 y3 : BitVec 64),
    y1 = y0.setWidth 64 ^^^ (y0.setWidth 64 >>> 11) ∧ y2 = y1 ^^^ ((y1 <<< 7) &&& 0x9d2c5680#64) ∧
    y3 = y2 ^^^ ((y2 <<< 15) &&& 0xefc60000#64) := ⟨0xFFFFFFFF#32, _, _, _, rfl, rfl, rfl⟩

/-- Each class of `IDX` at its ends: 0 and 623, 624, 625, 626 and the greatest; and the greatest `POS`. -/
theorem witness_nextByCursorClass (i : Word) (p : Position) :
    (blockAt zeros i p).gen.mt = written zeros ∧ (blockAt zeros i p).gen.idx = i ∧ (blockAt zeros i p).gen.pos = p ∧
    ((0#32).toNat ≤ 623 ∧ zeros[(0#32).toNat]? = some 0#32) ∧
    ((623#32).toNat ≤ 623 ∧ zeros[(623#32).toNat]? = some 0#32) ∧ (624#32).toNat = 624 ∧ 626 ≤ (626#32).toNat ∧
    626 ≤ (0xFFFFFFFF#32).toNat ∧ (625#32).toNat = 625 ∧ (0xFFFFFFFFFFFFFFFF#64).toNat = 2 ^ 64 - 1 ∧
    ∃ t, exec .next (blockAt zeros 626#32 0xFFFFFFFFFFFFFFFF#64) = .next t :=
  ⟨rfl, rfl, rfl, by decide +kernel, by decide +kernel, rfl, by decide, by decide, rfl, rfl, ⟨_, rfl⟩⟩

theorem witness_lazySeedingIsSeedDefThenNext :
    State.reset.gen.idx = 625#32 ∧ ∃ t, exec .seedDef State.reset = .next t := ⟨rfl, ⟨_, rfl⟩⟩

/-- An image with the index at each end of its range, 0 and 623; and the draws at each end of theirs. -/
theorem witness_twistPhase :
    unimage zeroImage ≠ none ∧ zeroImage[624]? = some 0#32 ∧ (0#32).toNat ≤ 623 ∧ 624 ≤ 624 - (0#32).toNat ∧
    625 = 625 - (0#32).toNat ∧
    unimage (List.replicate 624 0#32 ++ [623#32, 0#32, 0#32]) ≠ none ∧ (623#32).toNat ≤ 623 ∧
    1 ≤ 624 - (623#32).toNat ∧ 2 = 625 - (623#32).toNat := by decide +kernel

theorem witness_cursorAfterEachCommand :
    (∃ t, exec (.seed 1#32) State.reset = .next t) ∧ (∃ t, exec .seedDef State.reset = .next t) ∧
    (∃ t, exec .next State.reset = .next t) ∧ (∃ t, exec .save State.reset = .next t) ∧
    (∃ t, exec .pos State.reset = .next t) ∧ (∃ t, exec (.restore []) State.reset = .next t) ∧
    zeroImage.length = 627 ∧ (exec (.restore zeroImage) State.reset matches .next _) ∧
    (seeded.gen.idx.toNat ≤ 624 ∧ (∃ t, accept ⟨2#32, []⟩ seeded = .next t) ∧
      ∀ (D : List Word) (i : Word), decode ⟨2#32, []⟩ = .ok (.restore D) → D[624]? = some i → i.toNat ≤ 624) := by
  refine ⟨⟨_, rfl⟩, ⟨_, rfl⟩, ⟨_, rfl⟩, ⟨_, rfl⟩, ⟨_, rfl⟩, ⟨_, rfl⟩, by decide +kernel, by decide +kernel,
    by decide +kernel, ⟨_, rfl⟩, fun D i h => ?_⟩
  rw [show decode ⟨2#32, []⟩ = .ok .next by decide] at h
  cases h

theorem witness_sentinelOnlyFromResetOrRestore :
    ∃ t, exec .save State.reset = .next t ∧ 625 ≤ t.gen.idx.toNat ∧ t.gen = GenState.reset :=
  ⟨_, rfl, by show 625 ≤ (625#32).toNat; decide, rfl⟩

theorem witness_positionAfterEachCommand :
    (∃ t, exec (.seed 1#32) State.reset = .next t) ∧ (∃ t, exec .next State.reset = .next t) ∧
    (∃ t, exec .pos State.reset = .next t) ∧ (exec (.restore zeroImage) State.reset matches .next _) ∧
    zeroImage.length = 627 ∧ zeroImage[625]? = some 0#32 ∧ zeroImage[626]? = some 0#32 ∧
    (∃ t, exec (.restore []) State.reset = .next t) ∧ ([] : List Word).length ≠ 627 :=
  ⟨⟨_, rfl⟩, ⟨_, rfl⟩, ⟨_, rfl⟩, by decide +kernel, by decide +kernel, by decide +kernel, by decide +kernel, ⟨_, rfl⟩,
    by decide⟩

/-- n = 0 and n = 2^64 - 1; both seeds; and a block out of reset. -/
theorem witness_positionCountsDraws :
    0 < 2 ^ 64 ∧ 2 ^ 64 - 1 < 2 ^ 64 ∧ encode (.seed 7#32) = encode (.seed 7#32) ∧ encode .seedDef = encode .seedDef ∧
    State.reset.gen = GenState.reset ∧ 1 ≤ 2 ^ 64 - 1 := ⟨by decide, by decide, rfl, rfl, rfl, by decide⟩

theorem witness_positionNeverAffectsOutput : Instr.save ≠ Instr.pos ∧ Instr.next ≠ Instr.pos := by decide

/-- A written word and a wholly written array (in the seeded block). -/
theorem witness_saveAnswersTheWholeState :
    seeded.gen.allWritten = true ∧ seeded.gen.mt[(0 : Fin 624)] = some 4537#32 := by
  refine ⟨seeded_written, ?_⟩
  simp [seeded, blockAt]

theorem witness_unseeded : State.reset.gen = GenState.reset ∧ drawsAndReads [encode .next, encode .pos] :=
  ⟨rfl, by simp [drawsAndReads]⟩

theorem witness_failedRestoreChangesNothing : (List.replicate 626 0#32).length ≠ 627 := by decide +kernel

theorem witness_imageRoundTrip : zeroImage.length = 627 ∧ ([] : List Word).length ≠ 627 := by decide +kernel

/-- The invariant holds of a written block and of one out of reset. -/
theorem witness_snapshotReplaysTheSequence :
    seeded.gen.Inv ∧ seeded.gen.allWritten = true ∧ State.reset.gen.Inv ∧ drawsAndReads [encode .pos] :=
  ⟨.inl seeded_written, seeded_written, .inr rfl, by simp [drawsAndReads]⟩

theorem witness_repeatedCommandsAreIdempotent :
    Instr.save ≠ Instr.next ∧ seeded.gen.allWritten = true ∧ Instr.pos ≠ Instr.save :=
  ⟨by decide, seeded_written, by decide⟩

theorem witness_stepRunsTheDecodedCommand :
    (State.withFetchWord State.reset 32 2).port = .command (tableCommand 32 2) :: [] ∧
    decode (tableCommand 32 2) = .ok .next ∧ decode ⟨8#32, []⟩ = .error .reservedOp ∧
    decode ⟨2#32, [0#32]⟩ = .error .badOperand := ⟨rfl, by decide, by decide, by decide⟩

theorem witness_portEvents (c : Command) :
    ({ seeded with port := [.resetDuring c] } : State).port = .resetDuring c :: [] ∧
    ({ seeded with port := [.reset] } : State).port = .reset :: [] ∧
    ({ seeded with port := [.overlap c c] } : State).port = .overlap c c :: [] ∧ seeded.port = [] :=
  ⟨rfl, rfl, rfl, rfl⟩

theorem witness_blockNeverStopsUnderTheProtocol (c : Command) :
    ({ seeded with port := [.command c, .reset] } : State).hostKeepsProtocol = true ∧
    step { seeded with port := [.overlap c c] } = .fault .protocolViolation := ⟨rfl, rfl⟩

theorem witness_eachErrorHasOneSource :
    accept ⟨8#32, []⟩ seeded = .next (seeded.raise .reservedOp) ∧
    (seeded.raise .reservedOp).sent = seeded.sent ++ [⟨.reservedOp, []⟩] ∧
    accept ⟨4#32, []⟩ seeded = .next (seeded.raise .invalidState) ∧
    accept ⟨5#32, [0#32]⟩ seeded = .next (seeded.raise .badOperand) := ⟨rfl, rfl, rfl, rfl⟩

theorem witness_everyCommandIsAnsweredOnce : Status.ok = .ok ∧ Status.badOperand ≠ .ok := by decide

theorem witness_unwrittenWordsOnlyAtReset :
    State.reset.gen.Inv ∧ (∃ t, step (State.reset.withFetchWord 32 2) = .next t) ∧ seeded.gen.Inv ∧
    ∃ t, step seeded = .next t := ⟨.inr rfl, ⟨_, rfl⟩, .inl seeded_written, ⟨_, rfl⟩⟩

/-- Written blocks with equal state; a block with unwritten words; two blocks at 625 with equal `POS`. -/
theorem witness_stateDeterminesAllResponses :
    (seeded.gen = ({ seeded with draws := ⟨2, 5⟩ } : State).gen ∧ seeded.gen.allWritten = true) ∧
    (State.reset.gen.Inv ∧ State.reset.gen.allWritten = false) ∧
    (State.reset.gen.idx = 625#32 ∧ (blockAt zeros 625#32 0#64).gen.idx = 625#32 ∧
      State.reset.gen.pos = (blockAt zeros 625#32 0#64).gen.pos) :=
  ⟨⟨rfl, seeded_written⟩, ⟨.inr rfl, rfl⟩, rfl, rfl, rfl⟩

/-- An instance at the top of its range, and a step of one instance that takes an unwritten word's read. -/
theorem witness_instancesReadTheirOwnFreeValues :
    (2 : Fin 3).val = 2 ∧ ∃ sys : System 2,
      System.stepOne #v[seeded, State.reset.withFetchWord 32 3] 1 = .next sys :=
  ⟨rfl, _, rfl⟩

/-- Two instances, the source written or out of reset. -/
theorem witness_instances :
    (0 : Fin 2) ≠ 1 ∧ ((#v[seeded, State.reset] : System 2)[(0 : Fin 2)]).gen.Inv ∧
    ((#v[seeded, State.reset] : System 2)[(0 : Fin 2)]).gen.allWritten = true ∧
    ((#v[seeded, State.reset] : System 2)[(1 : Fin 2)]).gen.Inv :=
  ⟨by decide, .inl seeded_written, seeded_written, .inr rfl⟩

end Sys2Proof.Tests
end

section
/-! What each command leaves in the state, command by command: NEXT by the class of its cursor (R87, R90), SAVE (R93),
RESTORE by the length of its image (R96, R97), and the bounds that follow for the whole of `exec`. -/

namespace Sys2Proof.Machine

theorem exec_next (s : State) : exec .next s = .next s.seedIfNeverSeeded.regenerateIfExhausted.emit := rfl

theorem exec_save (s : State) :
    exec .save s = .next (s.readArray.2.respond .ok (image s.readArray.1 s.gen.idx s.gen.pos)) := rfl

theorem exec_pos (s : State) : exec .pos s = .next (s.respond .ok [posLow s.gen.pos, posHigh s.gen.pos]) := rfl

theorem exec_restore_of_length {D : List Word} (h : D.length = 627) (s : State) :
    exec (.restore D) s = .next
      ((((s.writeArray (imageArray D h)).writeIdx D[624]).writePos (joinPos D[625] D[626])).respond .ok []) := by
  simp [exec, execRestore, unimage, h]

theorem exec_restore_of_length_ne {D : List Word} (h : D.length ≠ 627) (s : State) :
    exec (.restore D) s = .next (s.raise .invalidState) := by
  simp [exec, execRestore, unimage, h]

/-- A twist and the draw that follows it leave the twist of the array read, and the cursor at 1. -/
theorem State.regenerate_emit_gen (s : State) :
    s.regenerate.emit.gen = ⟨written (twist s.readArray.1), 1#32, s.gen.pos + 1#64⟩ := by
  obtain ⟨hgen, -, -⟩ := s.regenerate_frame
  obtain ⟨hemit, -, -⟩ := s.regenerate.emit_frame
  rw [hemit, hgen]
  rfl

/-- The twist and the draw on a wholly written array, with the whole state after them. -/
theorem State.regenerate_emit_written {s : State} {A : WordArray} (h : s.gen.mt = written A) :
    s.regenerate.emit = { s with
      gen := ⟨written (twist A), 1#32, s.gen.pos + 1#64⟩, sent := s.sent ++ [⟨.ok, [temper (twist A)[0]]⟩] } := by
  have hzero : (0#32).toNat < 624 := by decide
  rw [State.regenerate_written h,
    State.emit_written (s := { s with gen := ⟨written (twist A), 0#32, s.gen.pos⟩ }) rfl hzero]
  rfl

/-- NEXT at the sentinel: what it does depends on nothing in the block (R74). -/
theorem exec_next_of_sentinel {s : State} (h : s.gen.idx = 625#32) :
    exec .next s = .next { s with
      gen := ⟨written (twist (seedInit defaultSeed)), 1#32, 1#64⟩,
      sent := s.sent ++ [⟨.ok, [temper (twist (seedInit defaultSeed))[0]]⟩] } := by
  rw [exec_next, State.seedIfNeverSeeded_of_eq h, State.regenerateIfExhausted_of_le (by simp),
    State.regenerate_emit_written (A := seedInit defaultSeed) rfl]
  rfl

/-- The three classes of NEXT's cursor, with the architectural state each leaves (R90). -/
theorem exec_next_cases {s t : State} (h : exec .next s = .next t) :
    (s.gen.idx = 625#32 ∧ t.gen = ⟨written (twist (seedInit defaultSeed)), 1#32, 1#64⟩) ∨
    (s.gen.idx.toNat < 624 ∧ t.gen = ⟨s.gen.mt, s.gen.idx + 1#32, s.gen.pos + 1#64⟩) ∨
    (s.gen.idx ≠ 625#32 ∧ 624 ≤ s.gen.idx.toNat ∧
      t.gen = ⟨written (twist s.readArray.1), 1#32, s.gen.pos + 1#64⟩) := by
  by_cases hs : s.gen.idx = 625#32
  · have ht := Host.Outcome.next.inj (h.symm.trans (exec_next_of_sentinel hs))
    exact .inl ⟨hs, by rw [ht]⟩
  · rw [exec_next, State.seedIfNeverSeeded_of_ne hs] at h
    cases h
    rcases Nat.lt_or_ge s.gen.idx.toNat 624 with hi | hi
    · rw [State.regenerateIfExhausted_of_lt hi]
      exact .inr (.inl ⟨hi, s.emit_frame.1⟩)
    · rw [State.regenerateIfExhausted_of_le hi]
      exact .inr (.inr ⟨hs, hi, s.regenerate_emit_gen⟩)

theorem exec_next_idx {s t : State} (h : exec .next s = .next t) : 1 ≤ t.gen.idx.toNat ∧ t.gen.idx.toNat ≤ 624 := by
  obtain ⟨-, ht⟩ | ⟨hi, ht⟩ | ⟨-, -, ht⟩ := exec_next_cases h
  · simp [ht]
  · simp only [ht, BitVec.toNat_add, BitVec.toNat_ofNat]
    omega
  · simp [ht]

theorem exec_next_pos {s t : State} (h : exec .next s = .next t) :
    t.gen.pos = if s.gen.idx = 625#32 then 1#64 else s.gen.pos + 1#64 := by
  obtain ⟨hs, ht⟩ | ⟨hi, ht⟩ | ⟨hs, -, ht⟩ := exec_next_cases h
  · rw [ht, if_pos hs]
  · have hs : s.gen.idx ≠ 625#32 := fun hs => by simp [hs] at hi
    rw [ht, if_neg hs]
  · rw [ht, if_neg hs]

/-- SAVE and POS write no architectural state (R93, R100). -/
theorem exec_save_or_pos_gen {s t : State} (h : exec .save s = .next t ∨ exec .pos s = .next t) : t.gen = s.gen := by
  rcases h with h | h
  · cases h; rfl
  · cases h; rfl

theorem exec_restore_idx {D : List Word} {s t : State} (h : exec (.restore D) s = .next t) (hD : D.length = 627) :
    D[624]? = some t.gen.idx := by
  rw [exec_restore_of_length hD] at h
  cases h
  exact List.getElem?_eq_getElem _

/-- All a command can do to the array: it writes every word, writes no architectural state, or draws a word that was
left and moves on. -/
theorem exec_gen_cases {i : Instr} {s t : State} (h : exec i s = .next t) :
    t.gen.allWritten = true ∨ t.gen = s.gen ∨
    (s.gen.idx.toNat < 624 ∧ t.gen = ⟨s.gen.mt, s.gen.idx + 1#32, s.gen.pos + 1#64⟩) := by
  cases i with
  | seed w => cases h; exact .inl (GenState.allWritten_of_written rfl)
  | seedDef => cases h; exact .inl (GenState.allWritten_of_written rfl)
  | next =>
    obtain ⟨-, ht⟩ | hkept | ⟨-, -, ht⟩ := exec_next_cases h
    · exact .inl (ht ▸ GenState.allWritten_of_written rfl)
    · exact .inr (.inr hkept)
    · exact .inl (ht ▸ GenState.allWritten_of_written rfl)
  | save => exact .inr (.inl (exec_save_or_pos_gen (.inl h)))
  | restore D =>
    by_cases hD : D.length = 627
    · rw [exec_restore_of_length hD] at h
      cases h
      exact .inl (GenState.allWritten_of_written rfl)
    · rw [exec_restore_of_length_ne hD] at h
      cases h
      exact .inr (.inl rfl)
  | pos => exact .inr (.inl (exec_save_or_pos_gen (.inr h)))

/-- The three sources of a command's cursor: a value of at most 624 from a seed or a draw, the cursor it found, or the
index word of a RESTORE's image. -/
theorem exec_idx_cases {i : Instr} {s t : State} (h : exec i s = .next t) :
    t.gen.idx.toNat ≤ 624 ∨ t.gen.idx = s.gen.idx ∨
    ∃ D, i = .restore D ∧ D.length = 627 ∧ D[624]? = some t.gen.idx := by
  cases i with
  | seed w => cases h; exact .inl (Nat.le_refl 624)
  | seedDef => cases h; exact .inl (Nat.le_refl 624)
  | next => exact .inl (exec_next_idx h).2
  | save => exact .inr (.inl (congrArg GenState.idx (exec_save_or_pos_gen (.inl h))))
  | restore D =>
    by_cases hD : D.length = 627
    · exact .inr (.inr ⟨D, rfl, hD, exec_restore_idx h hD⟩)
    · rw [exec_restore_of_length_ne hD] at h
      cases h
      exact .inr (.inl rfl)
  | pos => exact .inr (.inl (congrArg GenState.idx (exec_save_or_pos_gen (.inr h))))

end Sys2Proof.Machine
end

section
/-! The invariant of R31 and R36: every step keeps it. -/

namespace Sys2Proof.Machine

theorem GenState.reset_allWritten : GenState.reset.allWritten = false := by decide

theorem exec_keeps_inv {i : Instr} {s t : State} (hs : s.gen.Inv) (h : exec i s = .next t) : t.gen.Inv := by
  obtain hw | hkept | ⟨hi, ht⟩ := exec_gen_cases h
  · exact .inl hw
  · exact hkept ▸ hs
  · rcases hs with hw | hreset
    · exact .inl (ht ▸ hw)
    · rw [hreset] at hi
      exact absurd hi (by decide)

theorem accept_keeps_inv {c : Command} {s t : State} (hs : s.gen.Inv) (h : accept c s = .next t) : t.gen.Inv := by
  cases hd : decode c with
  | error e => rw [accept_of_error hd] at h; cases h; exact hs
  | ok i => rw [accept_of_ok hd] at h; exact exec_keeps_inv hs h

theorem handle_keeps_inv {e : PortEvent} {s t : State} (hs : s.gen.Inv) (h : handle e s = .next t) : t.gen.Inv := by
  cases e with
  | command c => exact accept_keeps_inv hs h
  | overlap c c' => cases h
  | reset => cases h; exact .inr rfl
  | resetDuring c => cases h; exact .inr rfl

/-- Settles O46: a step is the handling of one event, and every event keeps the invariant. -/
theorem unwrittenWordsOnlyAtReset : Obligations.UnwrittenWordsOnlyAtReset := by
  intro s t hs h
  cases hp : s.port with
  | nil => rw [step_of_idle hp] at h; cases h; exact hs
  | cons e rest => rw [step_of_event hp] at h; exact handle_keeps_inv (s := { s with port := rest }) hs h

end Sys2Proof.Machine
end

section
/-! The cursor and the position counter (R24 to R29). -/

namespace Sys2Proof.Machine

/-- A cursor of at most 624 stays so through every command but a RESTORE whose index word exceeds 624 (R29). -/
theorem accept_keeps_idx_le {c : Command} {s t : State} (hs : s.gen.idx.toNat ≤ 624) (h : accept c s = .next t)
    (hc : ∀ (D : List Word) (i : Word), decode c = .ok (.restore D) → D[624]? = some i → i.toNat ≤ 624) :
    t.gen.idx.toNat ≤ 624 := by
  cases hd : decode c with
  | error e => rw [accept_of_error hd] at h; cases h; exact hs
  | ok i =>
    rw [accept_of_ok hd] at h
    obtain hle | hkept | ⟨D, rfl, -, hD⟩ := exec_idx_cases h
    · exact hle
    · exact hkept ▸ hs
    · exact hc D _ hd hD

/-- Settles O22, from what each command leaves in the cursor. -/
theorem cursorAfterEachCommand : Obligations.CursorAfterEachCommand := by
  refine ⟨fun w s t h => ?_, fun s t h => ?_, fun s t h => exec_next_idx h,
    fun s t h => congrArg GenState.idx (exec_save_or_pos_gen h), fun D s t h hD => exec_restore_idx h hD, rfl,
    fun c s t hs h hc => accept_keeps_idx_le hs h hc⟩
  · cases h; rfl
  · cases h; rfl

/-- Settles O23: a cursor above 624 is the one found or an image's; and of the three things a command can do to the
array, only writing no architectural state can end in the reset state. -/
theorem sentinelOnlyFromResetOrRestore : Obligations.SentinelOnlyFromResetOrRestore := by
  refine fun i s t h => ⟨fun hbig => ?_, fun hreset => ?_⟩
  · exact (exec_idx_cases h).resolve_left (by omega)
  · obtain hw | hkept | ⟨hi, ht⟩ := exec_gen_cases h
    · rw [hreset, GenState.reset_allWritten] at hw
      cases hw
    · exact hkept ▸ hreset
    · have hidx : s.gen.idx + 1#32 = 625#32 := congrArg GenState.idx (ht.symm.trans hreset)
      bv_omega

/-- Settles O24, from what each command leaves in the position counter. -/
theorem positionAfterEachCommand : Obligations.PositionAfterEachCommand := by
  refine ⟨fun w s t h => ?_, fun s t h => ?_, fun s t h => congrArg GenState.pos (exec_save_or_pos_gen h),
    fun D lo hi s t h hD hlo hhi => ?_, fun D s t h hD => ?_⟩
  · rcases h with h | h
    · cases h; rfl
    · cases h; rfl
  · have hsentinel : s.gen.idx.toNat = 625 ↔ s.gen.idx = 625#32 := BitVec.toNat_inj (y := 625#32)
    simp only [exec_next_pos h, hsentinel]
    split
    · rfl
    · exact BitVec.toNat_add _ _
  · rw [exec_restore_of_length hD] at h
    cases h
    obtain ⟨-, rfl⟩ := List.getElem?_eq_some_iff.mp hlo
    obtain ⟨-, rfl⟩ := List.getElem?_eq_some_iff.mp hhi
    exact joinPos_toNat _ _
  · rw [exec_restore_of_length_ne hD] at h
    cases h
    rfl

end Sys2Proof.Machine
end

section
/-! The position counter never affects the array, the cursor or an output word (R26, R101): each part of a command,
run on a block whose counter was overwritten, gives the same block up to the counter. -/

namespace Sys2Proof.Machine

theorem State.seedIfNeverSeeded_writePos (s : State) (p : Position) :
    ∃ q, (s.writePos p).seedIfNeverSeeded = s.seedIfNeverSeeded.writePos q := by
  by_cases h : s.gen.idx = 625#32
  · rw [State.seedIfNeverSeeded_of_eq h, State.seedIfNeverSeeded_of_eq (s := s.writePos p) h]
    exact ⟨0#64, rfl⟩
  · rw [State.seedIfNeverSeeded_of_ne h, State.seedIfNeverSeeded_of_ne (s := s.writePos p) h]
    exact ⟨p, rfl⟩

theorem State.regenerateIfExhausted_writePos (s : State) (p : Position) :
    (s.writePos p).regenerateIfExhausted = s.regenerateIfExhausted.writePos p := by
  rcases Nat.lt_or_ge s.gen.idx.toNat 624 with h | h
  · rw [State.regenerateIfExhausted_of_lt h, State.regenerateIfExhausted_of_lt (s := s.writePos p) h]
  · rw [State.regenerateIfExhausted_of_le h, State.regenerateIfExhausted_of_le (s := s.writePos p) h]
    rfl

theorem State.readWord_writePos (s : State) (p : Position) (i : Nat) :
    (s.writePos p).readWord i = ((s.readWord i).1, (s.readWord i).2.writePos p) := by
  simp only [State.readWord, State.writePos_mt, State.writePos_draws]
  split <;> rfl

theorem State.emit_writePos (s : State) (p : Position) : (s.writePos p).emit = s.emit.writePos (p + 1#64) := by
  simp only [State.emit, State.writePos_idx, State.readWord_writePos]
  rfl

/-- What RESTORE writes replaces the overwritten counter too. -/
theorem State.overwrite_writePos (s : State) (A : WordArray) (i : Word) (p q : Position) :
    ((((s.writePos p).writeArray A).writeIdx i).writePos q).respond .ok [] =
      ((((s.writeArray A).writeIdx i).writePos q).respond .ok []).writePos q := rfl

theorem exec_next_writePos {s t : State} (h : exec .next s = .next t) (p : Position) :
    ∃ q, exec .next (s.writePos p) = .next (t.writePos q) := by
  obtain ⟨q, hseed⟩ := s.seedIfNeverSeeded_writePos p
  refine ⟨q + 1#64, ?_⟩
  rw [exec_next, hseed, State.regenerateIfExhausted_writePos, State.emit_writePos]
  cases h
  rfl

theorem image_take_array_and_idx (A : WordArray) (i : Word) (p : Position) :
    (image A i p).take 625 = A.toList ++ [i] := by
  simp [image, List.take_append]

/-- A command other than SAVE and POS, run on a block whose counter was overwritten, gives the same block up to the
counter, its response included. -/
theorem exec_writePos {i : Instr} (hsave : i ≠ .save) (hpos : i ≠ .pos) {s t : State} (h : exec i s = .next t)
    (p : Position) : ∃ q, exec i (s.writePos p) = .next (t.writePos q) := by
  cases i with
  | seed w => cases h; exact ⟨0#64, rfl⟩
  | seedDef => cases h; exact ⟨0#64, rfl⟩
  | next => exact exec_next_writePos h p
  | save => exact absurd rfl hsave
  | restore D =>
    by_cases hD : D.length = 627
    · rw [exec_restore_of_length hD] at h
      cases h
      exact ⟨_, (exec_restore_of_length hD _).trans (congrArg _ (s.overwrite_writePos _ _ _ _))⟩
    · rw [exec_restore_of_length_ne hD] at h
      cases h
      exact ⟨p, exec_restore_of_length_ne hD _⟩
  | pos => exact absurd rfl hpos

/-- Settles O26: of the six commands only SAVE and POS read the counter into a response, and SAVE puts it after word
624 of its image. -/
theorem positionNeverAffectsOutput : Obligations.PositionNeverAffectsOutput := by
  intro i s p
  by_cases hsave : i = .save
  · subst hsave
    refine ⟨_, _, _, _, _, exec_save s, exec_save (s.writePos p), rfl, rfl, rfl, rfl, rfl, rfl, fun _ => ?_⟩
    rw [image_take_array_and_idx, image_take_array_and_idx]
    rfl
  by_cases hpos : i = .pos
  · subst hpos
    exact ⟨_, _, _, _, _, exec_pos s, exec_pos (s.writePos p), rfl, rfl, rfl, rfl, rfl, rfl, fun h => absurd rfl h⟩
  obtain ⟨g, d, r, hframe⟩ := exec_frame i s.gen s.draws
  have hexec : exec i s = _ := hframe s.port s.sent
  obtain ⟨q, hq⟩ := exec_writePos hsave hpos hexec p
  exact ⟨_, _, _, _, _, hexec, hq, rfl, rfl, rfl, rfl, rfl, rfl, fun _ => rfl⟩

end Sys2Proof.Machine
end

section
/-! R31: the architectural state determines the responses. -/

namespace Sys2Proof.Machine

/-- At the sentinel the responses to draws and position reads depend on the position counter alone: position reads
leave the block there, and the first draw seeds it. -/
theorem acceptAll_of_sentinel {cs : List Command} (hcs : drawsAndReads cs) (p : Position) :
    ∃ rs, ∀ s : State, s.gen.idx = 625#32 → s.gen.pos = p →
      ∃ x, acceptAll cs s = .next x ∧ x.sent = s.sent ++ rs := by
  induction cs with
  | nil => exact ⟨[], fun s _ _ => ⟨s, rfl, by simp⟩⟩
  | cons c cs ih =>
    rcases hcs c (by simp) with rfl | rfl
    · obtain ⟨g, rs, -, -, hrest⟩ := acceptAll_written cs
        (γ := ⟨written (twist (seedInit defaultSeed)), 1#32, 1#64⟩) (GenState.allWritten_of_written rfl)
      refine ⟨⟨.ok, [temper (twist (seedInit defaultSeed))[0]]⟩ :: rs, fun s hidx _ => ?_⟩
      have hnext := (accept_of_ok (c := encode .next) rfl s).trans (exec_next_of_sentinel hidx)
      exact ⟨_, (acceptAll_cons hnext cs).trans (hrest _ _ _), by simp⟩
    · obtain ⟨rs, hrest⟩ := ih fun c hc => hcs c (List.mem_cons_of_mem _ hc)
      refine ⟨⟨.ok, [posLow p, posHigh p]⟩ :: rs, fun s hidx hpos => ?_⟩
      have hread := (accept_of_ok (c := encode .pos) rfl s).trans (exec_pos s)
      obtain ⟨x, hx, hsent⟩ := hrest (s.respond .ok [posLow s.gen.pos, posHigh s.gen.pos]) hidx hpos
      exact ⟨x, (acceptAll_cons hread cs).trans hx, by simp [hsent, hpos]⟩

/-- Settles O49: wholly written blocks answer from the architectural state, blocks at the sentinel from the position
counter, and by the invariant there is an unwritten word in the reset state alone. -/
theorem stateDeterminesAllResponses : Obligations.StateDeterminesAllResponses := by
  refine ⟨fun s r hgen hw cs => ?_, fun s hinv hw => ?_, fun s r hs hr hpos cs hcs => ?_⟩
  · obtain ⟨g, rs, -, -, h⟩ := acceptAll_written cs hw
    have hr := h r.port r.sent r.draws
    rw [hgen] at hr
    exact ⟨rs, _, _, h s.port s.sent s.draws, hr, rfl, rfl⟩
  · rcases hinv with hw' | hreset
    · rw [hw'] at hw; cases hw
    · rw [hreset]; rfl
  · obtain ⟨rs, h⟩ := acceptAll_of_sentinel hcs r.gen.pos
    obtain ⟨x, hx, hxs⟩ := h s hs hpos
    obtain ⟨y, hy, hys⟩ := h r hr rfl
    exact ⟨rs, x, y, hx, hy, hxs, hys⟩

end Sys2Proof.Machine
end

section
/-! The image of R41: its layout, and the two round trips between an image and its parts. -/

namespace Sys2Proof.Machine

@[simp] theorem image_length (A : WordArray) (i : Word) (p : Position) : (image A i p).length = 627 := by
  simp [image]

theorem unimage_of_length {w : List Word} (h : w.length = 627) :
    unimage w = some (imageArray w h, w[624], joinPos w[625] w[626]) := dif_pos h

theorem unimage_of_length_ne {w : List Word} (h : w.length ≠ 627) : unimage w = none := dif_neg h

theorem imageArray_image (A : WordArray) (i : Word) (p : Position) :
    imageArray (image A i p) (image_length A i p) = A :=
  Vector.toList_inj.mp (List.take_left' A.length_toList)

/-- `UNIMAGE(IMAGE(S)) = S`: the three parts stand in the image at fixed places. -/
theorem unimage_image (A : WordArray) (i : Word) (p : Position) : unimage (image A i p) = some (A, i, p) := by
  have htail (k : Nat) (hk : k < 3) :
      (image A i p)[624 + k]'(by rw [image_length]; omega) = [i, posLow p, posHigh p][k] :=
    (List.getElem_eq_iff _).mpr ((image_getElem?_tail A i p k).trans (List.getElem?_eq_getElem hk))
  rw [unimage_of_length (image_length A i p), imageArray_image, htail 0 (by decide), htail 1 (by decide),
    htail 2 (by decide)]
  exact congrArg (fun q => some (A, i, q)) (joinPos_posLow_posHigh p)

/-- `IMAGE(UNIMAGE(w)) = w`: 624 words and the three after them are the whole of `w`. -/
theorem image_of_parts {w : List Word} (h : w.length = 627) :
    image (imageArray w h) w[624] (joinPos w[625] w[626]) = w := by
  have htail : w.drop 624 = [w[624], w[625], w[626]] := by
    rw [List.drop_eq_getElem_cons, List.drop_eq_getElem_cons, List.drop_eq_getElem_cons,
      List.drop_eq_nil_of_le (by omega)]
  calc image (imageArray w h) w[624] (joinPos w[625] w[626])
      = w.take 624 ++ w.drop 624 := by rw [image, posLow_joinPos, posHigh_joinPos, htail]; rfl
    _ = w := w.take_append_drop 624

/-- Settles O32: the layout from the parts' places, and the round trips between a 627-word list and its parts. -/
theorem imageRoundTrip : Obligations.ImageRoundTrip := by
  refine ⟨fun A i p => ⟨image_length A i p, fun k => ?_, image_getElem?_tail A i p 0, image_getElem?_tail A i p 1,
    image_getElem?_tail A i p 2, unimage_image A i p⟩, fun w h => ?_, fun w h => unimage_of_length_ne h⟩
  · exact (image_getElem?_array A i p k.isLt).trans (Vector.getElem?_eq_getElem k.isLt)
  · exact ⟨_, _, _, unimage_of_length h, image_of_parts h⟩

end Sys2Proof.Machine
end

section
/-! Repetition (R45): every command but NEXT writes values that do not depend on the state it finds, or none. -/

namespace Sys2Proof.Machine

/-- RESTORE's writes leave nothing of the architectural state they find (R96). -/
theorem State.overwrite_gen (s : State) (A : WordArray) (i : Word) (p : Position) :
    ((((s.writeArray A).writeIdx i).writePos p).respond .ok []).gen = ⟨written A, i, p⟩ := rfl

/-- RESTORE, repeated, takes the same branch, which writes the image's parts or nothing (R96). -/
theorem exec_restore_repeated (D : List Word) (s : State) : ∃ t u r,
    exec (.restore D) s = .next t ∧ exec (.restore D) t = .next u ∧ u.gen = t.gen ∧
    t.sent = s.sent ++ [r] ∧ u.sent = t.sent ++ [r] := by
  by_cases hD : D.length = 627
  · exact ⟨_, _, _, exec_restore_of_length hD s, exec_restore_of_length hD _,
      (State.overwrite_gen _ _ _ _).trans (State.overwrite_gen _ _ _ _).symm, rfl, rfl⟩
  · exact ⟨_, _, _, exec_restore_of_length_ne hD s, exec_restore_of_length_ne hD _, rfl, rfl, rfl⟩

/-- SAVE on a wholly written array takes no draw: it answers the image of the state and changes nothing (R93). -/
theorem exec_save_of_written {s : State} {A : WordArray} (h : s.gen.mt = written A) :
    exec .save s = .next (s.respond .ok (image A s.gen.idx s.gen.pos)) := by
  rw [exec_save, State.readArray_written h]

/-- Settles O35: SEED, SEEDDEF and RESTORE write the same values again, SAVE and POS write none; SAVE's image repeats
where no word of it is a free value. -/
theorem repeatedCommandsAreIdempotent : Obligations.RepeatedCommandsAreIdempotent := by
  intro i s hi
  cases i with
  | next => exact absurd rfl hi
  | seed w => exact ⟨_, _, ⟨.ok, []⟩, _, rfl, rfl, rfl, rfl, rfl, fun _ => rfl, by simp⟩
  | seedDef => exact ⟨_, _, ⟨.ok, []⟩, _, rfl, rfl, rfl, rfl, rfl, fun _ => rfl, by simp⟩
  | restore D =>
    obtain ⟨t, u, r, ht, hu, hgen, hts, hus⟩ := exec_restore_repeated D s
    exact ⟨t, u, r, r, ht, hu, hgen, hts, hus, fun _ => rfl, by simp⟩
  | pos => exact ⟨_, _, _, _, exec_pos s, exec_pos _, rfl, rfl, rfl, fun _ => rfl, fun _ => rfl⟩
  | save =>
    by_cases hw : s.gen.allWritten = true
    · obtain ⟨A, hA⟩ := GenState.exists_written hw
      exact ⟨_, _, _, _, exec_save_of_written hA, exec_save_of_written (s := s.respond _ _) hA, rfl, rfl, rfl,
        fun _ => rfl, fun _ => rfl⟩
    · exact ⟨_, _, _, _, exec_save s, exec_save _, rfl, rfl, rfl, by simp [hw], fun _ => rfl⟩

end Sys2Proof.Machine
end

section
/-! Responses of a sequence of commands (R47, R133). -/

namespace Sys2Proof.Machine

/-- Any sequence of commands completes, with one response each. -/
theorem acceptAll_answers_each (cs : List Command) (s : State) :
    ∃ t rs, acceptAll cs s = .next t ∧ t.sent = s.sent ++ rs ∧ rs.length = cs.length := by
  obtain ⟨g, d, rs, hlen, h⟩ := acceptAll_frame cs s.gen s.draws
  exact ⟨_, rs, h s.port s.sent, rfl, hlen⟩

/-- Settles O45: the second part starts from the block the first part left, and appends its responses to those sent. -/
theorem responsesComeInCommandOrder : Obligations.ResponsesComeInCommandOrder := by
  intro cs ds s
  obtain ⟨t, rs, ht, hts, hrs⟩ := acceptAll_answers_each cs s
  obtain ⟨u, qs, hu, hus, hqs⟩ := acceptAll_answers_each ds t
  exact ⟨t, u, rs, qs, ht, hts, hrs, (acceptAll_append ht ds).trans hu, hts ▸ hus, hqs⟩

end Sys2Proof.Machine
end

section
/-! The opcode map (R54, R55, R58): decode is the inverse of encode, and encode's word is its row's `W`. -/

namespace Sys2Proof.Machine

theorem rsvd_setWidth (o : BitVec 3) : (o.setWidth 32).extractLsb' 3 29 = 0#29 := by
  revert o
  decide

theorem op_setWidth (o : BitVec 3) : (o.setWidth 32).extractLsb' 0 3 = o := by
  revert o
  decide

/-- An assigned operation code with an operand count that fits selects its command (R58). -/
theorem decode_of_count_fits {o : BitVec 3} {D : List Word} (ho : ¬(o = 0b110#3 ∨ o = 0b111#3))
    (hD : ¬(o ≠ 0b100#3 ∧ D.length ≠ expectedLen o)) : decode ⟨o.setWidth 32, D⟩ = .ok (selectInstr o D) := by
  simp only [decode, Command.rsvd_mk, Command.op_mk, rsvd_setWidth, op_setWidth]
  rw [if_neg (not_not.mpr rfl), if_neg ho, if_neg hD]

/-- An assigned operation code other than RESTORE's with a wrong operand count is BAD_OPERAND (R60). -/
theorem decode_of_count_ne {o : BitVec 3} {D : List Word} (ho : ¬(o = 0b110#3 ∨ o = 0b111#3)) (hrestore : o ≠ 0b100#3)
    (hD : D.length ≠ expectedLen o) : decode ⟨o.setWidth 32, D⟩ = .error .badOperand := by
  simp only [decode, Command.rsvd_mk, Command.op_mk, rsvd_setWidth, op_setWidth]
  rw [if_neg (not_not.mpr rfl), if_neg ho, if_pos ⟨hrestore, hD⟩]

theorem decode_encode (i : Instr) : decode (encode i) = .ok i := by
  cases i with
  | seed s => exact decode_of_count_fits (o := 0#3) (by decide) fun h => h.2 rfl
  | seedDef => exact decode_of_count_fits (o := 1#3) (by decide) fun h => h.2 rfl
  | next => exact decode_of_count_fits (o := 2#3) (by decide) fun h => h.2 rfl
  | save => exact decode_of_count_fits (o := 3#3) (by decide) fun h => h.2 rfl
  | restore D => exact decode_of_count_fits (o := 4#3) (by decide) fun h => h.1 rfl
  | pos => exact decode_of_count_fits (o := 5#3) (by decide) fun h => h.2 rfl

/-- Nothing of a command is lost where its checks pass: its word is its operation code, and its operands are those of
the row (R54, R58). -/
theorem encode_selectInstr {o : BitVec 3} {D : List Word} (ho : ¬(o = 0b110#3 ∨ o = 0b111#3))
    (hD : ¬(o ≠ 0b100#3 ∧ D.length ≠ expectedLen o)) : encode (selectInstr o D) = ⟨o.setWidth 32, D⟩ := by
  have hcount (h : o ≠ 0b100#3) : D.length = expectedLen o := not_not.mp fun hne => hD ⟨h, hne⟩
  have hnone (h : o ≠ 0b100#3) (hzero : expectedLen o = 0) : D = [] := List.length_eq_zero_iff.mp (hzero ▸ hcount h)
  rcases opcode_cases o with rfl | rfl | rfl | rfl | rfl | rfl | rfl | rfl
  · obtain ⟨w, rfl⟩ := List.length_eq_one_iff.mp (hcount (by decide))
    rfl
  · rw [hnone (by decide) rfl]; rfl
  · rw [hnone (by decide) rfl]; rfl
  · rw [hnone (by decide) rfl]; rfl
  · rfl
  · rw [hnone (by decide) rfl]; rfl
  · exact absurd (.inl rfl) ho
  · exact absurd (.inr rfl) ho

theorem eq_encode_of_decode {c : Command} {i : Instr} (h : decode c = .ok i) : c = encode i := by
  obtain ⟨-, he⟩ | ⟨-, -, he⟩ | ⟨-, -, -, he⟩ | ⟨hr, ho, hD, hi⟩ := decode_cases c
  · cases he.symm.trans h
  · cases he.symm.trans h
  · cases he.symm.trans h
  · cases hi.symm.trans h
    rw [encode_selectInstr ho hD, ← Command.word_of_rsvd_zero hr]

/-- Settles O2: an encoding passes every check of decode, and a command that passes them is put together again from the
instruction they select. -/
theorem decodeIsTheInverseOfEncode : Obligations.DecodeIsTheInverseOfEncode :=
  fun _ i => ⟨eq_encode_of_decode, fun h => h ▸ decode_encode i⟩

theorem encode_word (i : Instr) : (encode i).word = commandWordOf i := by
  cases i <;> rfl

theorem commandWordOf_eq_opcodeOf (i : Instr) : commandWordOf i = (opcodeOf i).setWidth 32 := by
  cases i <;> rfl

/-- The two fields of R53 fix the word, so a row's word is the only one with its `OP` and a clear reserved field. -/
theorem eq_commandWordOf_iff_fields (W : Word) (i : Instr) :
    W = commandWordOf i ↔ W.extractLsb' 3 29 = 0#29 ∧ W.extractLsb' 0 3 = opcodeOf i := by
  constructor
  · rintro rfl
    rw [commandWordOf_eq_opcodeOf]
    exact ⟨rsvd_setWidth _, op_setWidth _⟩
  · rintro ⟨hr, ho⟩
    rw [commandWordOf_eq_opcodeOf, ← ho]
    exact Command.word_of_rsvd_zero (c := ⟨W, []⟩) hr

/-- A word selects the row of `i`, at some operand sequence, exactly when it is that row's `W`. -/
theorem selects_iff_eq_commandWordOf (W : Word) (i : Instr) :
    (∃ D j, decode ⟨W, D⟩ = .ok j ∧ opcodeOf j = opcodeOf i) ↔ W = commandWordOf i := by
  constructor
  · rintro ⟨D, j, hj, hop⟩
    calc W = (encode j).word := congrArg Command.word (eq_encode_of_decode hj)
      _ = commandWordOf i := by rw [encode_word, commandWordOf_eq_opcodeOf, hop, ← commandWordOf_eq_opcodeOf]
  · rintro rfl
    exact ⟨(encode i).operands, i, encode_word i ▸ decode_encode i, rfl⟩

theorem exists_eq_commandWordOf_iff (W : Word) : (∃ i, W = commandWordOf i) ↔ W.toNat < 6 := by
  constructor
  · rintro ⟨i, rfl⟩
    cases i <;> simp [commandWordOf]
  · intro h
    have hW : W = 0#32 ∨ W = 1#32 ∨ W = 2#32 ∨ W = 3#32 ∨ W = 4#32 ∨ W = 5#32 := by bv_omega
    rcases hW with rfl | rfl | rfl | rfl | rfl | rfl
    exacts [⟨.seed 0#32, rfl⟩, ⟨.seedDef, rfl⟩, ⟨.next, rfl⟩, ⟨.save, rfl⟩, ⟨.restore [], rfl⟩, ⟨.pos, rfl⟩]

/-- Settles O1: selection by field and selection by mask are both equality with the row's word, and the six rows have the
words 0 to 5. -/
theorem exactlySixWordsSelectACommand : Obligations.ExactlySixWordsSelectACommand := by
  refine fun W => ⟨fun i => ⟨?_, ?_⟩, ?_⟩
  · rw [selects_iff_eq_commandWordOf, eq_commandWordOf_iff_fields]
  · have hmask : W &&& 0xFFFFFFFF#32 = W := BitVec.and_allOnes
    rw [selects_iff_eq_commandWordOf, hmask]
  · calc (∃ D i, decode ⟨W, D⟩ = .ok i)
        ↔ ∃ i, W = commandWordOf i :=
          ⟨fun ⟨D, i, h⟩ => ⟨i, (selects_iff_eq_commandWordOf W i).mp ⟨D, i, h, rfl⟩⟩,
            fun ⟨i, h⟩ => ((selects_iff_eq_commandWordOf W i).mpr h).imp fun _ ⟨j, hj, _⟩ => ⟨j, hj⟩⟩
      _ ↔ W.toNat < 6 := exists_eq_commandWordOf_iff W

/-- Settles O3: each of the six transactions is the encoding of its command. -/
theorem writtenOutWordsDecode : Obligations.WrittenOutWordsDecode :=
  ⟨decode_encode (.seed 5489#32), decode_encode .seedDef, decode_encode .next, decode_encode .save,
    decode_encode (.restore [1#32, 2#32]), decode_encode .pos⟩

end Sys2Proof.Machine
end

section
/-! Responses (R56, R57, R108, R109): which status a command is answered with, how many result words it has, and what an
error leaves unchanged. -/

namespace Sys2Proof.Machine

/-- The status with which a transaction is answered, by what decode says of it: decode's error, INVALID_STATE for a
RESTORE of the wrong length, or OK (`accept_answer` ties it to the model). -/
def answerStatus : Except DecodeError Instr → Status
  | .error e         => errorStatus e
  | .ok (.restore D) => if D.length = 627 then .ok else .invalidState
  | .ok _            => .ok

theorem answerStatus_eq_invalidState_iff (d : Except DecodeError Instr) :
    answerStatus d = .invalidState ↔ ∃ D, d = .ok (.restore D) ∧ D.length ≠ 627 := by
  cases d with
  | error e => cases e <;> simp [answerStatus, errorStatus]
  | ok i => cases i <;> simp [answerStatus]

/-- A status that stands for one of decode's errors is given by that error alone. -/
theorem answerStatus_eq_errorStatus_iff (d : Except DecodeError Instr) (e : DecodeError) :
    answerStatus d = errorStatus e ↔ d = .error e := by
  cases d with
  | error e' => cases e <;> cases e' <;> simp [answerStatus, errorStatus]
  | ok i =>
    have hok : answerStatus (.ok i) = .ok ∨ answerStatus (.ok i) = .invalidState := by
      cases i with
      | restore D => exact ite_eq_or_eq _ _ _
      | _ => exact .inl rfl
    rcases hok with h | h <;> cases e <;> simp [h, errorStatus]

theorem State.seedIfNeverSeeded_interface (s : State) :
    s.seedIfNeverSeeded.port = s.port ∧ s.seedIfNeverSeeded.sent = s.sent := by
  unfold State.seedIfNeverSeeded
  split <;> exact ⟨rfl, rfl⟩

theorem State.regenerateIfExhausted_interface (s : State) :
    s.regenerateIfExhausted.port = s.port ∧ s.regenerateIfExhausted.sent = s.sent := by
  unfold State.regenerateIfExhausted
  split
  · exact s.regenerate_frame.2
  · exact ⟨rfl, rfl⟩

/-- NEXT answers OK with one word, from every state (R87). -/
theorem exec_next_answer (s : State) : ∃ t y,
    exec .next s = .next t ∧ t.sent = s.sent ++ [⟨.ok, [y]⟩] ∧ t.port = s.port := by
  obtain ⟨hseedPort, hseedSent⟩ := s.seedIfNeverSeeded_interface
  obtain ⟨htwistPort, htwistSent⟩ := s.seedIfNeverSeeded.regenerateIfExhausted_interface
  obtain ⟨-, hemitPort, hemitSent⟩ := s.seedIfNeverSeeded.regenerateIfExhausted.emit_frame
  exact ⟨_, _, exec_next s, by rw [hemitSent, htwistSent, hseedSent], by rw [hemitPort, htwistPort, hseedPort]⟩

/-- Every command answers with its status and, where that is OK, the result words of its row (R54); an error has no
result words and leaves the state (R111). -/
theorem exec_answer (i : Instr) (s : State) : ∃ t words,
    exec i s = .next t ∧ t.sent = s.sent ++ [⟨answerStatus (.ok i), words⟩] ∧ t.port = s.port ∧
    (answerStatus (.ok i) = .ok → words.length = resultWordsOf i) ∧
    (answerStatus (.ok i) ≠ .ok → words = [] ∧ t.gen = s.gen ∧ t.draws = s.draws) := by
  cases i with
  | seed w => exact ⟨_, _, rfl, rfl, rfl, fun _ => rfl, fun h => absurd rfl h⟩
  | seedDef => exact ⟨_, _, rfl, rfl, rfl, fun _ => rfl, fun h => absurd rfl h⟩
  | next =>
    obtain ⟨t, y, ht, hsent, hport⟩ := exec_next_answer s
    exact ⟨t, [y], ht, hsent, hport, fun _ => rfl, fun h => absurd rfl h⟩
  | save => exact ⟨_, _, exec_save s, rfl, rfl, fun _ => image_length _ _ _, fun h => absurd rfl h⟩
  | restore D =>
    by_cases hD : D.length = 627
    · have hok : answerStatus (.ok (.restore D)) = .ok := if_pos hD
      rw [hok]
      exact ⟨_, _, exec_restore_of_length hD s, rfl, rfl, fun _ => rfl, fun h => absurd rfl h⟩
    · have hinv : answerStatus (.ok (.restore D)) = .invalidState := if_neg hD
      rw [hinv]
      exact ⟨_, _, exec_restore_of_length_ne hD s, rfl, rfl, nofun, fun _ => ⟨rfl, rfl, rfl⟩⟩
  | pos => exact ⟨_, _, exec_pos s, rfl, rfl, fun _ => rfl, fun h => absurd rfl h⟩

/-- The same of every transaction, decode's errors included. -/
theorem accept_answer (c : Command) (s : State) : ∃ t r,
    accept c s = .next t ∧ t.sent = s.sent ++ [r] ∧ t.port = s.port ∧ r.status = answerStatus (decode c) ∧
    (r.status = .ok → ∃ i, decode c = .ok i ∧ r.words.length = resultWordsOf i) ∧
    (r.status ≠ .ok → r.words = [] ∧ t.gen = s.gen ∧ t.draws = s.draws) := by
  cases hd : decode c with
  | ok i =>
    obtain ⟨t, words, ht, hsent, hport, hok, herr⟩ := exec_answer i s
    exact ⟨t, ⟨_, words⟩, (accept_of_ok hd s).trans ht, hsent, hport, rfl, fun h => ⟨i, rfl, hok h⟩, herr⟩
  | error e =>
    have hne : errorStatus e ≠ .ok := by cases e <;> decide
    exact ⟨_, ⟨errorStatus e, []⟩, accept_of_error hd s, rfl, rfl, rfl, fun h => absurd h hne, fun _ => ⟨rfl, rfl, rfl⟩⟩

/-- Settles O43, by what every transaction is answered with. -/
theorem everyCommandIsAnsweredOnce : Obligations.EveryCommandIsAnsweredOnce := by
  intro c s
  obtain ⟨t, r, ht, hsent, hport, -, hok, herr⟩ := accept_answer c s
  exact ⟨t, r, ht, hsent, hport, hok, herr⟩

/-- The response of a transaction that was accepted has the status decode gives it. -/
theorem status_of_accept {c : Command} {s t : State} {r : Response} (h : accept c s = .next t)
    (hsent : t.sent = s.sent ++ [r]) : r.status = answerStatus (decode c) := by
  obtain ⟨t', r', ht', hsent', -, hstatus, -⟩ := accept_answer c s
  obtain rfl : t = t' := Host.Outcome.next.inj (h.symm.trans ht')
  obtain rfl : r = r' := by simpa using hsent.symm.trans hsent'
  exact hstatus

/-- Settles O44: the status is `answerStatus` of what decode says, which each error enters from one side only. -/
theorem eachErrorHasOneSource : Obligations.EachErrorHasOneSource := by
  refine ⟨rfl, rfl, rfl, rfl, fun c s t r h hsent => ?_⟩
  rw [status_of_accept h hsent]
  exact ⟨answerStatus_eq_invalidState_iff _, answerStatus_eq_errorStatus_iff _ .reservedOp,
    answerStatus_eq_errorStatus_iff _ .badOperand⟩

/-- Settles O5: decode refuses the wrong counts of the five commands, and takes a RESTORE at any count, whose meaning
then tests the length. -/
theorem wrongOperandCountsAreAnswered : Obligations.WrongOperandCountsAreAnswered := by
  refine ⟨fun D s hD => ?_, fun W D s hW hD => ?_, fun D s hD => ?_, fun D s hD => ?_, rfl, rfl⟩
  · exact accept_of_error (decode_of_count_ne (o := 0#3) (by decide) (by decide) hD) s
  · have hbad : decode ⟨W, D⟩ = .error .badOperand := by
      rcases hW with rfl | rfl | rfl | rfl
      · exact decode_of_count_ne (o := 1#3) (by decide) (by decide) hD
      · exact decode_of_count_ne (o := 2#3) (by decide) (by decide) hD
      · exact decode_of_count_ne (o := 3#3) (by decide) (by decide) hD
      · exact decode_of_count_ne (o := 5#3) (by decide) (by decide) hD
    exact accept_of_error hbad s
  · exact (accept_of_ok (decode_encode (.restore D)) s).trans (exec_restore_of_length_ne hD s)
  · exact ⟨_, (accept_of_ok (decode_encode (.restore D)) s).trans (exec_restore_of_length hD s), rfl⟩

/-- SEEDDEF is SEED with the default seed, in its effect (R64, R72). -/
theorem exec_seedDef_eq_seed (s : State) : exec .seedDef s = exec (.seed 4537#32) s := rfl

/-- Settles O9: one effect and two encodings. -/
theorem seedDefActsAsSeed4537 : Obligations.SeedDefActsAsSeed4537 :=
  ⟨fun s => ⟨_, exec_seedDef_eq_seed s, rfl, rfl, rfl, rfl, rfl, rfl⟩, decode_encode .seedDef, rfl, by decide⟩

/-- A step with a command next at the port accepts it, taken off the port. -/
theorem step_of_command {s : State} {c : Command} {rest : List PortEvent} (h : s.port = .command c :: rest) :
    step s = accept c { s with port := rest } := step_of_event h

/-- Settles O36: the step accepts the command, and acceptance runs what decode gives or answers its error. -/
theorem stepRunsTheDecodedCommand : Obligations.StepRunsTheDecodedCommand :=
  fun _ _ _ hp => ⟨fun _ hd => (step_of_command hp).trans (accept_of_ok hd _),
    fun hd => (step_of_command hp).trans (accept_of_error hd _),
    fun hd => (step_of_command hp).trans (accept_of_error hd _)⟩

end Sys2Proof.Machine
end

section
/-! The seeding datapath word by word (R67), and the state a seed leaves (R69). -/

namespace Sys2Proof.Machine

theorem exec_seed (w : Word) (s : State) : exec (.seed w) s = .next ((s.seedWith w).respond .ok []) := rfl

theorem seedNext_toNat (before : Word) (i : Nat) :
    (seedNext before i).toNat = (1812433253 * (before ^^^ (before >>> 30)).toNat + i) % 2 ^ 32 := by
  rw [seedNext, BitVec.toNat_add, BitVec.toNat_mul, BitVec.toNat_ofNat, ← Nat.add_mod]
  rfl

theorem seedFrom_getElem?_zero (before : Word) (i : Nat) {k : Nat} (hk : 0 < k) :
    (seedFrom before i k)[0]? = some (seedNext before i) := by
  cases k with
  | zero => exact absurd hk (Nat.lt_irrefl 0)
  | succ k => rfl

/-- Each word of a seed array is the recurrence's next word after the one before it, from word 1 on. -/
theorem seedInit_getElem?_succ_eq_map (s : Word) {j : Nat} (hj : j < 623) :
    (seedInit s)[j + 1]? = (seedInit s)[j]?.map fun w => seedNext w (j + 1) := by
  rw [seedInit_getElem?_succ]
  cases j with
  | zero =>
    rw [seedFrom_getElem?_zero s 1 hj, Vector.getElem?_eq_getElem (by decide), seedInit_getElem_zero, Option.map_some]
  | succ j =>
    rw [seedFrom_getElem?_succ s 1 623 j hj, seedInit_getElem?_succ]
    simp only [Nat.add_comm 1 j]

theorem seedInit_getElem_one (s : Word) : (seedInit s)[1] = seedNext s 1 := by
  simpa using seedInit_getElem?_succ_eq_map s (j := 0) (by decide)

/-- Settles O7: consecutive words are `seedNext` of one another, which is the rule's formula over naturals. -/
theorem seedArrayFollowsTheRecurrence : Obligations.SeedArrayFollowsTheRecurrence := by
  refine fun s => ⟨seedInit_getElem_zero s, fun i before here h1 h623 hbefore hhere => ?_⟩
  obtain ⟨j, rfl⟩ : ∃ j, i = j + 1 := ⟨i - 1, by omega⟩
  rw [Nat.add_sub_cancel] at hbefore
  rw [seedInit_getElem?_succ_eq_map s (by omega), hbefore] at hhere
  cases hhere
  exact seedNext_toNat before (j + 1)

/-- The first two words of the array a SEED leaves. -/
theorem exec_seed_first_words {w : Word} {s t : State} (h : exec (.seed w) s = .next t) :
    t.gen.mt[0] = some w ∧ t.gen.mt[1] = some (seedNext w 1) := by
  rw [exec_seed] at h
  cases h
  simp [seedInit_getElem_one]

/-- Settles O8: SEED's writes read no prior state, and decode refuses the other operand counts. -/
theorem seedReplacesTheWholeState : Obligations.SeedReplacesTheWholeState := by
  refine ⟨fun w s => ⟨decode_encode (.seed w), _, exec_seed w s, fun i => ?_, rfl, rfl, rfl, rfl, rfl⟩,
    fun D hD => decode_of_count_ne (o := 0#3) (by decide) (by decide) hD,
    fun s t h => exec_seed_first_words h, fun s t h => exec_seed_first_words h⟩
  simp

end Sys2Proof.Machine
end

section
/-! NEXT on a wholly written array (R87, R90), and lazy seeding (R74). -/

namespace Sys2Proof.Machine

/-- NEXT with a word left draws it and leaves the array. -/
theorem exec_next_of_word_left {s : State} {A : WordArray} (h : s.gen.mt = written A) (hi : s.gen.idx.toNat < 624) :
    exec .next s = .next { s with
      gen := ⟨written A, s.gen.idx + 1#32, s.gen.pos + 1#64⟩,
      sent := s.sent ++ [⟨.ok, [temper A[s.gen.idx.toNat]]⟩] } := by
  have hne : s.gen.idx ≠ 625#32 := fun he => by simp [he] at hi
  rw [exec_next, State.seedIfNeverSeeded_of_ne hne, State.regenerateIfExhausted_of_lt hi, State.emit_written h hi]

/-- NEXT with no word left, off the sentinel, twists and draws word 0 of the twist. -/
theorem exec_next_of_exhausted {s : State} {A : WordArray} (h : s.gen.mt = written A) (hne : s.gen.idx ≠ 625#32)
    (hi : 624 ≤ s.gen.idx.toNat) :
    exec .next s = .next { s with
      gen := ⟨written (twist A), 1#32, s.gen.pos + 1#64⟩, sent := s.sent ++ [⟨.ok, [temper (twist A)[0]]⟩] } := by
  rw [exec_next, State.seedIfNeverSeeded_of_ne hne, State.regenerateIfExhausted_of_le hi,
    State.regenerate_emit_written h]

/-- Word 0 of a twist has its final value after step 0, which reads three original words (R76, R78). -/
theorem twist_getElem_zero (A : WordArray) : (twist A)[0] = twistMix A[0] A[1] A[397] := by
  rw [twist, twistUpto_getElem_of_lt A (by decide) (by decide), twistUpto_succ A (by decide)]
  simp [twistStep, twistUpto, M, N]

/-- The first word drawn from the default seed (R81). -/
theorem temper_first_default_word : temper (twist (seedInit defaultSeed))[0] = 1288459236#32 := by
  rw [twist_getElem_zero]
  decide +kernel

/-- Settles O19: NEXT at the sentinel and NEXT after SEEDDEF both draw from the twist of the default seed's array. -/
theorem lazySeedingIsSeedDefThenNext : Obligations.LazySeedingIsSeedDefThenNext := by
  intro s t hs ht
  rw [exec_seedDef_eq_seed, exec_seed] at ht
  cases ht
  refine ⟨rfl, _, _, exec_next_of_sentinel hs,
    exec_next_of_exhausted (A := seedInit defaultSeed) rfl (by simp) (by simp), rfl, ?_, ?_⟩
  all_goals rw [temper_first_default_word]

end Sys2Proof.Machine
end

section
/-! The draws after a seed (R70, R88): the array and the cursor after any number of them, and the word each answers. -/

namespace Sys2Proof.Machine

/-- The block is as `k` draws leave one whose array was `A` with no word left (`IDX` = 624): the array has been twisted
once per 624 draws begun, and the cursor stands just after the word drawn last. -/
def State.AfterDraws (A : WordArray) (k : Nat) (s : State) : Prop :=
  s.gen.mt = written (Nat.iterate twist ((k + 623) / 624) A) ∧ s.gen.idx.toNat = (k + 623) % 624 + 1

theorem State.afterDraws_zero_of_seed (w : Word) (s : State) :
    State.AfterDraws (seedInit w) 0 ((s.seedWith w).respond .ok []) := ⟨rfl, rfl⟩

/-- Draw number `k` answers the tempered word `k mod 624` of the twist it falls in, and the next draw is number
`k + 1`: the draw twists first exactly when 624 divides `k`. -/
theorem exec_next_afterDraws {A : WordArray} {k : Nat} {s : State} (h : s.AfterDraws A k) : ∃ t y,
    exec .next s = .next t ∧ t.AfterDraws A (k + 1) ∧ t.sent = s.sent ++ [⟨.ok, [temper y]⟩] ∧
    (Nat.iterate twist (k / 624 + 1) A)[k % 624]? = some y := by
  obtain ⟨hmt, hidx⟩ := h
  have hround : (k + 1 + 623) / 624 = k / 624 + 1 := by omega
  have hplace : (k + 1 + 623) % 624 = k % 624 := by omega
  unfold State.AfterDraws
  rw [hround, hplace]
  by_cases hk : k % 624 = 0
  · have hdone : (k + 623) / 624 = k / 624 := by omega
    have hi : s.gen.idx.toNat = 624 := by omega
    have hne : s.gen.idx ≠ 625#32 := fun he => by simp [he] at hi
    rw [hdone] at hmt
    refine ⟨_, _, exec_next_of_exhausted hmt hne (by omega), ⟨?_, ?_⟩, rfl, ?_⟩
    · rw [Function.iterate_succ_apply']
    · simp [hk]
    · rw [hk, Function.iterate_succ_apply', Vector.getElem?_eq_getElem]
  · have hbegun : (k + 623) / 624 = k / 624 + 1 := by omega
    have hi : s.gen.idx.toNat = k % 624 := by omega
    have hlt : s.gen.idx.toNat < 624 := by omega
    rw [hbegun] at hmt
    refine ⟨_, _, exec_next_of_word_left hmt hlt, ⟨rfl, ?_⟩, rfl, ?_⟩
    · simp only [BitVec.toNat_add, BitVec.toNat_ofNat]
      omega
    · rw [← hi, Vector.getElem?_eq_getElem]

theorem drawCommands_succ (n : Nat) : drawCommands (n + 1) = drawCommands n ++ [encode .next] := List.replicate_succ'

/-- One more NEXT after a sequence of commands. -/
theorem acceptAll_then_next {cs : List Command} {s t u : State} (hcs : acceptAll cs s = .next t)
    (hnext : exec .next t = .next u) : acceptAll (cs ++ [encode .next]) s = .next u := by
  rw [acceptAll_append hcs, acceptAll_cons ((accept_of_ok (decode_encode .next) t).trans hnext), acceptAll_nil]

theorem acceptAll_seed_draws (w : Word) (s : State) (k : Nat) : ∃ t,
    acceptAll (encode (.seed w) :: drawCommands k) s = .next t ∧ t.AfterDraws (seedInit w) k := by
  induction k with
  | zero => exact ⟨_, acceptAll_cons (accept_of_ok (decode_encode (.seed w)) s) [], s.afterDraws_zero_of_seed w⟩
  | succ k ih =>
    obtain ⟨t, ht, hdrawn⟩ := ih
    obtain ⟨u, -, hu, hdrawn', -, -⟩ := exec_next_afterDraws hdrawn
    rw [drawCommands_succ, ← List.cons_append]
    exact ⟨u, acceptAll_then_next ht hu, hdrawn'⟩

/-- Settles O20: the last NEXT is draw number `k` from the state that the seed and `k` draws leave. -/
theorem kthDrawAfterSeed : Obligations.KthDrawAfterSeed := by
  intro w s k
  obtain ⟨t, ht, hdrawn⟩ := acceptAll_seed_draws w s k
  obtain ⟨u, y, hu, -, hsent, hy⟩ := exec_next_afterDraws hdrawn
  rw [drawCommands_succ, ← List.cons_append]
  exact ⟨u, y, acceptAll_then_next ht hu, hy, by rw [hsent, List.getLast?_concat]⟩

end Sys2Proof.Machine
end

section
/-! The twist word by word (R76, R78), and which bits of word 0 reach it (R80). -/

namespace Sys2Proof.Machine

/-- The model's twist word is R76's, whose literals the model names. -/
theorem twistMix_eq_twistWordOf (here after far : Word) : twistMix here after far = twistWordOf here after far := rfl

/-- The word a twist step rewrites. -/
theorem twistStep_getElem_self (A : WordArray) (kk : Fin 624) :
    (twistStep A kk)[kk] = twistWordOf A[kk] (A[(kk.val + 1) % 624]'(Nat.mod_lt _ (by decide)))
      (A[(kk.val + 397) % 624]'(Nat.mod_lt _ (by decide))) := by
  simp [twistStep, N, M, twistMix_eq_twistWordOf]

/-- Settles O11: the step sets word `kk` and no other. -/
theorem twistStepRewritesOneWord : Obligations.TwistStepRewritesOneWord := by
  intro A kk j after far hafter hfar
  split
  case isTrue hj =>
    obtain ⟨-, rfl⟩ := Vector.getElem?_eq_some_iff.mp hafter
    obtain ⟨-, rfl⟩ := Vector.getElem?_eq_some_iff.mp hfar
    rw [hj, twistStep_getElem_self]
  case isFalse hj => exact twistStep_getElem_ne A kk j.isLt fun h => hj (Fin.ext h.symm)

/-- A word that an earlier step rewrote is a word of the whole twist. -/
theorem twistUpto_getElem_eq_twist (A : WordArray) {k j : Nat} (hj : j < k) (hk : k ≤ 624) :
    (twistUpto A k)[j] = (twist A)[j] := by
  rw [twist, twistUpto_getElem_of_lt A hj hk, twistUpto_getElem_of_lt A (by omega) (Nat.le_refl 624)]

/-- Word `kk` of a twist is the one step `kk` writes: from the original word `kk`, and two words as the steps before it
left them (R77). -/
theorem twist_getElem (A : WordArray) {kk : Nat} (hk : kk < 624) :
    (twist A)[kk] = twistWordOf A[kk] ((twistUpto A kk)[(kk + 1) % 624]'(Nat.mod_lt _ (by decide)))
      ((twistUpto A kk)[(kk + 397) % 624]'(Nat.mod_lt _ (by decide))) := by
  rw [← twistUpto_getElem_eq_twist A (Nat.lt_succ_self kk) hk, twistUpto_succ A hk]
  refine (twistStep_getElem_self _ ⟨kk, hk⟩).trans ?_
  congr 1
  exact twistUpto_getElem_of_le A (Nat.le_refl kk) hk

/-- Settles O12: step `kk` finds a word below `kk` rewritten and one above it original, and the index arithmetic modulo
624 says which of the two each operand is. -/
theorem twistReadsWordsItRewrote : Obligations.TwistReadsWordsItRewrote := by
  intro A kk here new hhere hnew
  obtain ⟨hk, rfl⟩ := Vector.getElem?_eq_some_iff.mp hhere
  obtain ⟨-, rfl⟩ := Vector.getElem?_eq_some_iff.mp hnew
  rw [twist_getElem A hk]
  refine ⟨fun hlow after far hafter hfar => ?_, fun hmid hmid' after far hafter hfar => ?_, fun hlast => ?_⟩
  · obtain ⟨_, rfl⟩ := Vector.getElem?_eq_some_iff.mp hafter
    obtain ⟨_, rfl⟩ := Vector.getElem?_eq_some_iff.mp hfar
    have hafterIdx : (kk + 1) % 624 = kk + 1 := by omega
    have hfarIdx : (kk + 397) % 624 = kk + 397 := by omega
    simp only [hafterIdx, hfarIdx]
    rw [twistUpto_getElem_of_le A (by omega), twistUpto_getElem_of_le A (by omega)]
  · obtain ⟨_, rfl⟩ := Vector.getElem?_eq_some_iff.mp hafter
    obtain ⟨_, rfl⟩ := Vector.getElem?_eq_some_iff.mp hfar
    have hafterIdx : (kk + 1) % 624 = kk + 1 := by omega
    have hfarIdx : (kk + 397) % 624 = kk - 227 := by omega
    simp only [hafterIdx, hfarIdx]
    rw [twistUpto_getElem_of_le A (by omega), twistUpto_getElem_eq_twist A (by omega) (by omega)]
  · subst hlast
    exact congrArg₂ _ (twistUpto_getElem_eq_twist A (j := 0) (by decide) (by decide))
      (twistUpto_getElem_eq_twist A (j := 396) (by decide) (by decide))

/-- A twist step takes bit 31 alone from the word it replaces (R76). -/
theorem twistWordOf_congr_upper_bit {here here' : Word} (h : here.getLsbD 31 = here'.getLsbD 31) (after far : Word) :
    twistWordOf here after far = twistWordOf here' after far := by
  have hupper : here &&& 0x80000000#32 = here' &&& 0x80000000#32 := by
    have hmask : 0x80000000#32 = BitVec.twoPow 32 31 := rfl
    rw [hmask, BitVec.and_twoPow, BitVec.and_twoPow, h]
  simp only [twistWordOf, hupper]

/-- Arrays that step 0 makes equal have the same twist: the later steps read what step 0 left (R77). -/
theorem twist_congr_of_first_step {A B : WordArray} (h : twistStep A 0 = twistStep B 0) : twist A = twist B := by
  have hupto (k : Nat) (hk : k < 624) : twistUpto A (k + 1) = twistUpto B (k + 1) := by
    induction k with
    | zero => exact h
    | succ k ih => rw [twistUpto_succ A hk, twistUpto_succ B hk, ih (by omega)]
  exact hupto 623 (by decide)

/-- Settles O13: step 0 rewrites the one word in which the arrays differ, taking bit 31 of it, so after step 0 they are
equal. -/
theorem twistIgnoresLowBitsOfWordZero : Obligations.TwistIgnoresLowBitsOfWordZero := by
  intro A B hrest hbit
  have hrest' (j : Nat) (hj : j < 624) (hne : j ≠ 0) : A[j] = B[j] :=
    hrest ⟨j, hj⟩ (by simpa [Fin.ext_iff] using hne)
  apply twist_congr_of_first_step
  ext j hj : 1
  by_cases hzero : j = 0
  · subst hzero
    calc (twistStep A 0)[0]
        = twistWordOf A[0] A[1] A[397] := twistStep_getElem_self A 0
      _ = twistWordOf B[0] A[1] A[397] := twistWordOf_congr_upper_bit hbit _ _
      _ = twistWordOf B[0] B[1] B[397] := by
        rw [hrest' 1 (by decide) (by decide), hrest' 397 (by decide) (by decide)]
      _ = (twistStep B 0)[0] := (twistStep_getElem_self B 0).symm
  · have hne : (0 : Fin 624).val ≠ j := Ne.symm hzero
    rw [twistStep_getElem_ne A 0 hj hne, twistStep_getElem_ne B 0 hj hne, hrest' j hj hzero]

end Sys2Proof.Machine
end

section
/-! Tempering (R83), and its four lines in a wider integer (R84). -/

namespace Sys2Proof.Machine

/-- Settles O15: the four lines are TEMPER's own, with its constants written out. -/
theorem temperIsTheFourLines : Obligations.TemperIsTheFourLines := by
  rintro y0 y1 y2 y3 y4 rfl rfl rfl rfl
  rfl

/-- A right-shift line of TEMPER commutes with widening. -/
theorem xor_ushiftRight_setWidth (y : Word) (n : Nat) :
    y.setWidth 64 ^^^ (y.setWidth 64 >>> n) = (y ^^^ (y >>> n)).setWidth 64 := by
  rw [BitVec.setWidth_xor, BitVec.setWidth_ushiftRight (by decide)]

/-- A left-shift line of TEMPER commutes with widening: the 32-bit mask clears what the shift moves above bit 31. -/
theorem xor_shiftLeft_and_setWidth (y mask : Word) (n : Nat) :
    y.setWidth 64 ^^^ ((y.setWidth 64 <<< n) &&& mask.setWidth 64) =
      (y ^^^ ((y <<< n) &&& mask)).setWidth 64 := by
  have hmasked : (y.setWidth 64 <<< n) &&& mask.setWidth 64 = ((y <<< n) &&& mask).setWidth 64 := by
    apply BitVec.eq_of_getLsbD_eq
    intro i hi
    by_cases hlow : i < 32
    · have hshift : i - n < 64 := by omega
      simp only [BitVec.getLsbD_and, BitVec.getLsbD_shiftLeft, BitVec.getLsbD_setWidth, hi, hlow, hshift, decide_true,
        Bool.true_and]
    · have hmask : mask.getLsbD i = false := BitVec.getLsbD_of_ge mask i (by omega)
      simp [hmask]
  rw [hmasked, BitVec.setWidth_xor]

/-- Settles O16: each line commutes with widening; and at the word 4 the seeding multiply exceeds 32 bits. -/
theorem temperMasksClearTheWideBits : Obligations.TemperMasksClearTheWideBits := by
  constructor
  · rintro y0 y1 y2 y3 rfl rfl rfl
    have hB : 0x9d2c5680#64 = temperB.setWidth 64 := rfl
    have hC : 0xefc60000#64 = temperC.setWidth 64 := rfl
    rw [hB, hC, xor_ushiftRight_setWidth, xor_shiftLeft_and_setWidth, xor_shiftLeft_and_setWidth,
      xor_ushiftRight_setWidth]
    rfl
  · exact ⟨4#32, by decide⟩

end Sys2Proof.Machine
end

section
/-! NEXT by the class of its cursor, with the whole state after it (R87, R90). -/

namespace Sys2Proof.Machine

theorem idx_eq_sentinel_iff (i : Word) : i = 625#32 ↔ i.toNat = 625 := (BitVec.toNat_inj (y := 625#32)).symm

/-- A cursor within the array moves on without wrapping. -/
theorem idx_succ_toNat {i : Word} (h : i.toNat ≤ 623) : (i + 1#32).toNat = i.toNat + 1 := by
  rw [BitVec.toNat_add, BitVec.toNat_ofNat]
  omega

/-- Settles O17, one clause per class of the cursor. -/
theorem nextByCursorClass : Obligations.NextByCursorClass := by
  refine ⟨fun s A y hA hi hy => ?_, fun s A hA hi => ?_, fun s hi => ?_, fun s t hi hp h => ?_⟩
  · obtain ⟨hlt, rfl⟩ := Vector.getElem?_eq_some_iff.mp hy
    exact exec_next_of_word_left hA hlt
  · have hne : s.gen.idx ≠ 625#32 := by rw [ne_eq, idx_eq_sentinel_iff]; omega
    exact exec_next_of_exhausted hA hne (by omega)
  · exact exec_next_of_sentinel ((idx_eq_sentinel_iff _).mpr hi)
  · rw [exec_next_pos h, if_neg (mt (idx_eq_sentinel_iff _).mp hi), BitVec.toNat_add, hp]
    rfl

/-- Settles O18: the answer from every state, and the array, cursor and counter in each class of the cursor. -/
theorem nextAlwaysAnswersOneWord : Obligations.NextAlwaysAnswersOneWord := by
  intro s
  obtain ⟨t, y, ht, hsent, hport⟩ := exec_next_answer s
  obtain ⟨hlow, hhigh⟩ := exec_next_idx ht
  have hpos := exec_next_pos ht
  simp only [idx_eq_sentinel_iff] at hpos
  refine ⟨t, y, ht, hsent, hport, hlow, hhigh, fun hi => ?_, fun hi => ?_, hpos⟩
  · obtain ⟨hs, -⟩ | ⟨-, hgen⟩ | ⟨-, hge, -⟩ := exec_next_cases ht
    · rw [idx_eq_sentinel_iff] at hs; omega
    · rw [hgen]; exact ⟨idx_succ_toNat hi, rfl⟩
    · omega
  · obtain ⟨-, hgen⟩ | ⟨hlt, -⟩ | ⟨-, -, hgen⟩ := exec_next_cases ht
    · rw [hgen]; exact ⟨rfl, GenState.allWritten_of_written rfl⟩
    · omega
    · rw [hgen]; exact ⟨rfl, GenState.allWritten_of_written rfl⟩

end Sys2Proof.Machine
end

section
/-! The all-zero array (R80, R97): a seed never gives it, and a twist and a draw keep it. -/

namespace Sys2Proof.Machine

/-- Settles O10: word 0 is the seed, and the recurrence gives word 1 the value 1 after a zero seed. -/
theorem seedArrayIsNeverAllZero : Obligations.SeedArrayIsNeverAllZero := by
  intro s
  by_cases hs : s = 0#32
  · subst hs
    exact ⟨1, fun h => absurd ((seedInit_getElem_one 0#32).symm.trans h) (by decide)⟩
  · exact ⟨0, fun h => hs ((seedInit_getElem_zero s).symm.trans h)⟩

theorem twistStep_zeros (kk : Fin 624) :
    twistStep (Vector.replicate 624 0#32) kk = Vector.replicate 624 0#32 := by
  ext j hj : 1
  by_cases h : kk.val = j
  · subst h
    refine (twistStep_getElem_self _ kk).trans ?_
    simp [twistWordOf]
  · exact twistStep_getElem_ne _ kk hj h

/-- The all-zero array is a fixed point of the twist: every step writes the zero word it finds. -/
theorem twist_zeros : twist (Vector.replicate 624 0#32) = Vector.replicate 624 0#32 := by
  have hupto (k : Nat) (hk : k ≤ 624) :
      twistUpto (Vector.replicate 624 0#32) k = Vector.replicate 624 0#32 := by
    induction k with
    | zero => rfl
    | succ k ih => rw [twistUpto_succ _ hk, ih (by omega), twistStep_zeros]
  exact hupto 624 (Nat.le_refl 624)

/-- NEXT on a block of zero words, off the sentinel, answers 0 and leaves zero words. -/
theorem exec_next_of_zeros {s : State} (h : s.gen.mt = written (Vector.replicate 624 0#32))
    (hne : s.gen.idx ≠ 625#32) : ∃ t,
    exec .next s = .next t ∧ t.sent = s.sent ++ [⟨.ok, [0#32]⟩] ∧
    t.gen.mt = written (Vector.replicate 624 0#32) := by
  have htemper : temper 0#32 = 0#32 := by decide
  rcases Nat.lt_or_ge s.gen.idx.toNat 624 with hi | hi
  · exact ⟨_, exec_next_of_word_left h hi, by simp [htemper], rfl⟩
  · exact ⟨_, exec_next_of_exhausted h hne hi, by simp [twist_zeros, htemper], by simp only [twist_zeros]⟩

/-- Settles O14: twisted or not, the block draws from zero words, and no draw ends at the sentinel. -/
theorem allZeroArrayStaysAllZero : Obligations.AllZeroArrayStaysAllZero := by
  refine ⟨twist_zeros, fun s hzero hne => ?_⟩
  have hmt : s.gen.mt = written (Vector.replicate 624 0#32) := by
    ext i hi : 1
    simpa [hi] using hzero ⟨i, hi⟩
  obtain ⟨t, ht, hsent, hmt'⟩ := exec_next_of_zeros hmt hne
  refine ⟨t, ht, hsent, fun i => by simp [hmt'], fun hs => ?_⟩
  have hidx := (exec_next_idx ht).2
  rw [idx_eq_sentinel_iff] at hs
  omega

end Sys2Proof.Machine
end

section
/-! Which draws twist, after a seed and after a RESTORE (R82, R88). -/

namespace Sys2Proof.Machine

theorem exec_restore_of_unimage {D : List Word} {A : WordArray} {i : Word} {p : Position}
    (h : unimage D = some (A, i, p)) (s : State) :
    exec (.restore D) s = .next ((((s.writeArray A).writeIdx i).writePos p).respond .ok []) := by
  simp [exec, execRestore, h]

/-- Draws that the array still has words for leave it and move the cursor on. -/
theorem acceptAll_draws_of_words_left {s : State} {A : WordArray} (h : s.gen.mt = written A) {j : Nat}
    (hj : s.gen.idx.toNat + j ≤ 624) : ∃ t,
    acceptAll (drawCommands j) s = .next t ∧ t.gen.mt = written A ∧ t.gen.idx.toNat = s.gen.idx.toNat + j := by
  induction j with
  | zero => exact ⟨s, rfl, h, rfl⟩
  | succ j ih =>
    obtain ⟨t, ht, hmt, hidx⟩ := ih (by omega)
    rw [drawCommands_succ]
    refine ⟨_, acceptAll_then_next ht (exec_next_of_word_left hmt (by omega)), rfl, ?_⟩
    rw [← Nat.add_assoc, ← hidx]
    exact idx_succ_toNat (by omega)

/-- The draw after the array's last word twists. -/
theorem acceptAll_draws_of_first_twist {s : State} {A : WordArray} (h : s.gen.mt = written A)
    (hi : s.gen.idx.toNat ≤ 624) : ∃ t,
    acceptAll (drawCommands (625 - s.gen.idx.toNat)) s = .next t ∧ t.gen.mt = written (twist A) ∧
      t.gen.idx.toNat = 1 := by
  obtain ⟨t, ht, hmt, hidx⟩ := acceptAll_draws_of_words_left h (j := 624 - s.gen.idx.toNat) (by omega)
  have hne : t.gen.idx ≠ 625#32 := by rw [ne_eq, idx_eq_sentinel_iff]; omega
  have hcount : 625 - s.gen.idx.toNat = 624 - s.gen.idx.toNat + 1 := by omega
  rw [hcount, drawCommands_succ]
  exact ⟨_, acceptAll_then_next ht (exec_next_of_exhausted hmt hne (by omega)), rfl, rfl⟩

/-- Settles O21: the seed's clause from the state after `k` draws, RESTORE's from the draws its array has words for and
the twist after them. -/
theorem twistPhase : Obligations.TwistPhase := by
  refine ⟨fun w s k => ?_, fun D A i p s j hD hi => ?_⟩
  · obtain ⟨t, ht, hmt, hidx⟩ := acceptAll_seed_draws w s k
    refine ⟨t, ht, hmt, ?_⟩
    split <;> omega
  · have hrestore := (accept_of_ok (decode_encode (.restore D)) s).trans (exec_restore_of_unimage hD s)
    rw [acceptAll_cons hrestore]
    generalize hr : (((s.writeArray A).writeIdx i).writePos p).respond .ok [] = r
    have hmt : r.gen.mt = written A := by rw [← hr]; rfl
    have hidx : r.gen.idx = i := by rw [← hr]; rfl
    subst hidx
    by_cases hleft : j ≤ 624 - r.gen.idx.toNat
    · obtain ⟨t, ht, htmt, htidx⟩ := acceptAll_draws_of_words_left hmt (j := j) (by omega)
      exact ⟨t, ht, fun _ => ⟨htmt, htidx⟩, fun _ => by omega⟩
    by_cases hfirst : j = 625 - r.gen.idx.toNat
    · obtain ⟨t, ht, htwisted⟩ := acceptAll_draws_of_first_twist hmt (by omega)
      exact ⟨t, hfirst ▸ ht, fun h => absurd h hleft, fun _ => htwisted⟩
    · obtain ⟨t, -, ht, -⟩ := acceptAll_answers_each (drawCommands j) r
      exact ⟨t, ht, fun h => absurd h hleft, fun h => absurd h hfirst⟩

end Sys2Proof.Machine
end

section
/-! The position counter as POS shows it (R100), and as NEXT counts it (R102). -/

namespace Sys2Proof.Machine

theorem pos64_posLow_posHigh (p : Position) : pos64 [posLow p, posHigh p] = some p :=
  congrArg some (joinPos_posLow_posHigh p)

/-- Settles O34: POS answers the counter's two halves, which join to it. -/
theorem posAnswersTheCounter : Obligations.PosAnswersTheCounter := by
  refine fun s => ⟨_, _, exec_pos s, ?_, pos64_posLow_posHigh s.gen.pos⟩
  rw [← joinPos_toNat, joinPos_posLow_posHigh]

/-- A POS after a sequence of commands shows the counter that the sequence leaves. -/
theorem acceptAll_then_pos {cs : List Command} {s t : State} (h : acceptAll cs s = .next t) : ∃ u words,
    acceptAll (cs ++ [encode .pos]) s = .next u ∧ u.sent.getLast? = some ⟨.ok, words⟩ ∧
      pos64 words = some t.gen.pos := by
  have hpos := (accept_of_ok (decode_encode .pos) t).trans (exec_pos t)
  exact ⟨_, _, (acceptAll_append h _).trans (acceptAll_cons hpos []),
    List.getLast?_concat, pos64_posLow_posHigh t.gen.pos⟩

/-- Draws count themselves: from a cursor of at most 624, where no draw seeds lazily, each adds one to the counter and
ends at such a cursor again. -/
theorem acceptAll_draws_pos {s : State} (hi : s.gen.idx.toNat ≤ 624) (n : Nat) : ∃ t,
    acceptAll (drawCommands n) s = .next t ∧ t.gen.idx.toNat ≤ 624 ∧ t.gen.pos = s.gen.pos + BitVec.ofNat 64 n := by
  induction n with
  | zero => exact ⟨s, rfl, hi, (BitVec.add_zero s.gen.pos).symm⟩
  | succ n ih =>
    obtain ⟨t, ht, hti, htp⟩ := ih
    obtain ⟨u, -, hu, -⟩ := exec_next_answer t
    have hne : t.gen.idx ≠ 625#32 := by rw [ne_eq, idx_eq_sentinel_iff]; omega
    rw [drawCommands_succ]
    refine ⟨u, acceptAll_then_next ht hu, (exec_next_idx hu).2, ?_⟩
    rw [exec_next_pos hu, if_neg hne, htp, BitVec.add_assoc, ← BitVec.ofNat_add]

/-- Both seeds leave the cursor at 624 and the counter at 0 (R69, R72). -/
theorem accept_of_seeding {c : Command} {w : Word} (hc : c = encode (.seed w) ∨ c = encode .seedDef) (s : State) :
    ∃ t, accept c s = .next t ∧ t.gen.idx = 624#32 ∧ t.gen.pos = 0#64 := by
  rcases hc with rfl | rfl
  · exact ⟨_, accept_of_ok (decode_encode (.seed w)) s, rfl, rfl⟩
  · exact ⟨_, accept_of_ok (decode_encode .seedDef) s, rfl, rfl⟩

/-- Settles O25: the counter is 0 after a seed and 1 after the first draw out of reset, and each later draw adds one. -/
theorem positionCountsDraws : Obligations.PositionCountsDraws := by
  refine fun n _ => ⟨fun w c s hc => ?_, fun s hs hn => ?_⟩
  · obtain ⟨t, ht, hidx, hpos⟩ := accept_of_seeding hc s
    obtain ⟨u, hu, -, hup⟩ := acceptAll_draws_pos (s := t) (by simp [hidx]) n
    rw [hpos, BitVec.zero_add] at hup
    rw [acceptAll_cons ht, ← hup]
    exact acceptAll_then_pos hu
  · obtain ⟨m, rfl⟩ : ∃ m, n = 1 + m := ⟨n - 1, by omega⟩
    have hidx : s.gen.idx = 625#32 := congrArg GenState.idx hs
    obtain ⟨t, -, ht, -⟩ := exec_next_answer s
    obtain ⟨u, hu, -, hup⟩ := acceptAll_draws_pos (exec_next_idx ht).2 m
    rw [exec_next_pos ht, if_pos hidx, ← BitVec.ofNat_add] at hup
    have hdraws : drawCommands (1 + m) = encode .next :: drawCommands m := by
      rw [Nat.add_comm, drawCommands, List.replicate_succ, drawCommands]
    rw [hdraws, List.cons_append, acceptAll_cons ((accept_of_ok (decode_encode .next) s).trans ht), ← hup]
    exact acceptAll_then_pos hu

end Sys2Proof.Machine
end

section
/-! SAVE, RESTORE and the image between them (R93, R96, R41). -/

namespace Sys2Proof.Machine

theorem posLow_eq_ofNat (p : Position) : posLow p = BitVec.ofNat 32 p.toNat := by
  apply BitVec.eq_of_toNat_eq
  rw [posLow_toNat, BitVec.toNat_ofNat]

theorem posHigh_eq_ofNat (p : Position) : posHigh p = BitVec.ofNat 32 (p.toNat / 2 ^ 32) := by
  apply BitVec.eq_of_toNat_eq
  rw [posHigh_toNat, BitVec.toNat_ofNat, Nat.mod_eq_of_lt]
  exact Nat.div_lt_of_lt_mul p.isLt

/-- A read returns a written word as it is, wherever the unwritten ones stand. -/
theorem readWords_getElem?_of_written {l : List (Option Word)} {i : Nat} {w : Word} (h : l[i]? = some (some w))
    (d : Draws) : (readWords l d)[i]? = some w := by
  induction l generalizing i d with
  | nil => cases h
  | cons o l ih =>
    cases i with
    | zero => cases h; rfl
    | succ i => cases o <;> exact ih h _

theorem State.readArray_getElem?_of_written {s : State} {i : Nat} {w : Word} (h : s.gen.mt[i]? = some (some w)) :
    s.readArray.1[i]? = some w := by
  rw [← Vector.getElem?_toList] at h ⊢
  exact readWords_getElem?_of_written h s.draws

/-- Settles O27: the image's places, and a read of the array that moves only `draws`. -/
theorem saveAnswersTheWholeState : Obligations.SaveAnswersTheWholeState := by
  refine fun s => ⟨_, _, exec_save s, rfl, rfl, rfl, fun hw => ?_, image_length _ _ _, fun i w hw => ?_,
    image_getElem?_tail _ _ _ 0, ?_, ?_⟩
  · obtain ⟨A, hA⟩ := GenState.exists_written hw
    rw [State.readArray_written hA]
    rfl
  · rw [image_getElem?_array _ _ _ i.isLt]
    exact State.readArray_getElem?_of_written (Vector.getElem?_eq_some_iff.mpr ⟨i.isLt, hw⟩)
  · rw [← posLow_eq_ofNat]
    exact image_getElem?_tail _ _ _ 1
  · rw [← posHigh_eq_ofNat]
    exact image_getElem?_tail _ _ _ 2

theorem imageArray_getElem? {D : List Word} (h : D.length = 627) {k : Nat} (hk : k < 624) :
    (imageArray D h)[k]? = D[k]? := by
  rw [← Vector.getElem?_toList]
  exact List.getElem?_take_of_lt hk

/-- Settles O30: RESTORE writes the parts of an image of 627 words, and raises INVALID_STATE at other lengths. -/
theorem restoreOverwritesTheWholeState : Obligations.RestoreOverwritesTheWholeState := by
  intro D s
  split
  case isTrue hD =>
    refine ⟨_, exec_restore_of_length hD s, fun i => ?_, List.getElem?_eq_getElem _, ?_, ?_, rfl, rfl, rfl⟩
    · calc (written (imageArray D hD))[i.val]
          = some (imageArray D hD)[i.val] := written_getElem _ _ i.isLt
        _ = (imageArray D hD)[i.val]? := (Vector.getElem?_eq_getElem i.isLt).symm
        _ = D[i.val]? := imageArray_getElem? hD i.isLt
    · rw [← posLow_eq_ofNat, State.respond_pos, State.writePos_pos, posLow_joinPos]
      exact List.getElem?_eq_getElem _
    · rw [← posHigh_eq_ofNat, State.respond_pos, State.writePos_pos, posHigh_joinPos]
      exact List.getElem?_eq_getElem _
  case isFalse hD => exact exec_restore_of_length_ne hD s

/-- Settles O31: the failed RESTORE appends its response, and the next command reads nothing of the responses sent. -/
theorem failedRestoreChangesNothing : Obligations.FailedRestoreChangesNothing := by
  refine fun D s hD => ⟨exec_restore_of_length_ne hD s, fun c => ?_⟩
  obtain ⟨g, d, r, h⟩ := accept_frame c s.gen s.draws
  refine ⟨_, r, h s.port s.sent, rfl, (h s.port _).trans ?_⟩
  rw [List.append_assoc]
  rfl

end Sys2Proof.Machine
end

section
/-! Snapshots: the image a SAVE answers, restored into any block, replays what follows the SAVE (R94, R99). -/

namespace Sys2Proof.Machine

/-- The image a SAVE answers (`exec_save_answers_savedImage`). -/
def State.savedImage (s : State) : List Word := image s.readArray.1 s.gen.idx s.gen.pos

/-- The architectural state that image holds: a block's own, with its unwritten words as SAVE read them
(`exec_restore_savedImage`). -/
def State.savedGen (s : State) : GenState := ⟨written s.readArray.1, s.gen.idx, s.gen.pos⟩

theorem State.savedGen_of_allWritten {s : State} (h : s.gen.allWritten = true) : s.savedGen = s.gen := by
  obtain ⟨A, hA⟩ := GenState.exists_written h
  rw [State.savedGen, State.readArray_written hA, ← hA]

theorem exec_save_answers_savedImage (s : State) : ∃ t,
    exec .save s = .next t ∧ t.gen = s.gen ∧ t.sent = s.sent ++ [⟨.ok, s.savedImage⟩] := ⟨_, exec_save s, rfl, rfl⟩

theorem exec_restore_savedImage (s r : State) : ∃ u,
    exec (.restore s.savedImage) r = .next u ∧ u.gen = s.savedGen ∧ u.sent = r.sent ++ [⟨.ok, []⟩] :=
  ⟨_, exec_restore_of_unimage (unimage_image _ _ _) r, rfl, rfl⟩

/-- A block in the state a SAVE began from and a block in the state its image holds answer alike: where every word was
written the two states are equal, and otherwise both are at the sentinel with one counter. -/
theorem acceptAll_alike_of_savedGen {s t u : State} (hinv : s.gen.Inv) (ht : t.gen = s.gen) (hu : u.gen = s.savedGen)
    {cs : List Command} (hcs : s.gen.allWritten = true ∨ drawsAndReads cs) : ∃ rs x y,
    acceptAll cs t = .next x ∧ acceptAll cs u = .next y ∧ x.sent = t.sent ++ rs ∧ y.sent = u.sent ++ rs := by
  obtain ⟨hwritten, hunwritten, hsentinel⟩ := stateDeterminesAllResponses
  by_cases hw : s.gen.allWritten = true
  · have hgen : t.gen = u.gen := by rw [ht, hu, State.savedGen_of_allWritten hw]
    exact hwritten t u hgen (ht ▸ hw) cs
  · have hidx : s.gen.idx = 625#32 := hunwritten s hinv (Bool.eq_false_iff.mpr hw)
    have hti : t.gen.idx = 625#32 := by rw [ht, hidx]
    have hui : u.gen.idx = 625#32 := by rw [hu]; exact hidx
    have hpos : t.gen.pos = u.gen.pos := by rw [ht, hu]; rfl
    exact hsentinel t u hti hui hpos cs (hcs.resolve_left hw)

/-- Settles O33: SAVE leaves the state it began from, and RESTORE the one its image holds. -/
theorem snapshotReplaysTheSequence : Obligations.SnapshotReplaysTheSequence := by
  intro s r hinv
  obtain ⟨t, ht, htgen, htsent⟩ := exec_save_answers_savedImage s
  obtain ⟨u, hu, hugen, husent⟩ := exec_restore_savedImage s r
  exact ⟨t, u, _, ht, htsent, hu, husent, fun _ hcs => acceptAll_alike_of_savedGen hinv htgen hugen hcs⟩

/-- Settles O29: the image keeps the sentinel and the counter 0, and the block restored from it answers draws and
position reads as the one that was saved, whose state is that of any block out of reset. -/
theorem saveOfUnseededBlock : Obligations.SaveOfUnseededBlock := by
  intro s r q hs hq
  obtain ⟨t, ht, htgen, htsent⟩ := exec_save_answers_savedImage s
  obtain ⟨u, hu, hugen, -⟩ := exec_restore_savedImage s r
  have htail (k : Nat) : s.savedImage[624 + k]? = [625#32, 0#32, 0#32][k]? := by
    rw [State.savedImage, image_getElem?_tail, hs]
    rfl
  refine ⟨t, u, _, ht, htgen, htsent, image_length _ _ _, htail 0, htail 1, htail 2, hu, fun cs hcs => ?_⟩
  obtain ⟨rs, y, x, hy, hx, hys, hxs⟩ :=
    acceptAll_alike_of_savedGen (.inr hs) (hq.trans hs.symm) hugen (.inr hcs)
  exact ⟨rs, x, y, hx, hy, hxs, hys⟩

end Sys2Proof.Machine
end

section
/-! CLONE between two blocks of a system (R103 to R105, R124). -/

namespace Sys2Proof.Machine

theorem System.acceptOne_next {n : Nat} {sys : System n} {g : Fin n} {c : Command} {t : State}
    (h : accept c sys[g] = .next t) : sys.acceptOne g c = .next (sys.set g t) := by
  rw [System.acceptOne, h, System.afterOne_next]

theorem System.set_self {n : Nat} (sys : System n) (g : Fin n) (t : State) : (sys.set g t)[g] = t :=
  Vector.getElem_set_self g.isLt

theorem System.set_ne {n : Nat} (sys : System n) {g k : Fin n} (hne : k ≠ g) (t : State) : (sys.set g t)[k] = sys[k] :=
  Vector.getElem_set_ne g.isLt k.isLt fun h => hne (Fin.ext h.symm)

/-- A command to one block of a system leaves every other as it is (R124). -/
theorem System.acceptOne_frame {n : Nat} {sys x : System n} {g k : Fin n} {c : Command}
    (h : sys.acceptOne g c = .next x) (hne : k ≠ g) : x[k] = sys[k] := by
  obtain ⟨t, -, ht, -⟩ := accept_answer c sys[g]
  obtain rfl : _ = x := Host.Outcome.next.inj ((System.acceptOne_next ht).symm.trans h)
  exact System.set_ne sys hne t

/-- All CLONE does: the source only answers its SAVE, the destination holds what the image holds, and the rest of the
system stays (R103). -/
theorem System.clone_next {n : Nat} (sys : System n) {ga gb : Fin n} (hne : ga ≠ gb) : ∃ sys' : System n,
    sys.clone ga gb = .next sys' ∧ sys'[ga].gen = sys[ga].gen ∧
    sys'[gb].gen = sys[ga].savedGen ∧ sys'[gb].sent = sys[gb].sent ++ [⟨.ok, []⟩] ∧
    ∀ g : Fin n, g ≠ ga → g ≠ gb → sys'[g] = sys[g] := by
  obtain ⟨t, ht, htgen, htsent⟩ := exec_save_answers_savedImage sys[ga]
  obtain ⟨u, hu, hugen, husent⟩ := exec_restore_savedImage sys[ga] sys[gb]
  have hsave : sys.acceptOne ga (encode .save) = .next (sys.set ga t) :=
    System.acceptOne_next ((accept_of_ok (decode_encode .save) _).trans ht)
  have himage : ((sys.set ga t)[ga].sent.getLast?.map Response.words).getD [] = sys[ga].savedImage := by
    rw [System.set_self, htsent, List.getLast?_concat]
    rfl
  have hrestore : System.acceptOne (sys.set ga t) gb (encode (.restore sys[ga].savedImage)) =
      .next ((sys.set ga t).set gb u) := by
    apply System.acceptOne_next
    rw [System.set_ne sys hne.symm, accept_of_ok (decode_encode _), hu]
  refine ⟨(sys.set ga t).set gb u, ?_, ?_, ?_, ?_, fun g ha hb => ?_⟩
  · simp only [System.clone, hsave, himage, hrestore]
  · rw [System.set_ne _ hne, System.set_self, htgen]
  · rw [System.set_self, hugen]
  · rw [System.set_self, husent]
  · rw [System.set_ne _ hb, System.set_ne _ ha]

/-- Settles O51: the destination holds what the source's image holds, which is the source's state where that is wholly
written. -/
theorem cloneCopiesTheSource : Obligations.CloneCopiesTheSource := by
  intro n sys ga gb hne
  obtain ⟨sys', hclone, hsource, hdest, hsent, hrest⟩ := sys.clone_next hne
  refine ⟨sys', hclone, hsource, fun hw => hdest.trans (State.savedGen_of_allWritten hw), ?_, ?_, hsent, hrest⟩
  · rw [hdest]; rfl
  · rw [hdest]; rfl

/-- Settles O52: a command changes its own block alone, and CLONE leaves the two blocks as a SAVE and a RESTORE of
its image leave them. -/
theorem clonesAreIndependentAndEqual : Obligations.ClonesAreIndependentAndEqual := by
  intro n sys ga gb hne hinv
  obtain ⟨sys', hclone, hsource, hdest, -, -⟩ := sys.clone_next hne
  exact ⟨sys', hclone, fun _ _ h => System.acceptOne_frame h hne.symm, fun _ _ h => System.acceptOne_frame h hne,
    fun _ hcs => acceptAll_alike_of_savedGen hinv hsource hdest hcs⟩

end Sys2Proof.Machine
end

section
/-! Errors (R110, R111, R113): the first condition in the order of R113 decides the status, and an error response is all
that a failed command leaves. -/

namespace Sys2Proof.Machine

/-- A transaction whose status is not OK is answered with that status, and nothing else of the block changes (R111). -/
theorem accept_of_error_status {c : Command} (h : answerStatus (decode c) ≠ .ok) (s : State) :
    accept c s = .next (s.raise (answerStatus (decode c))) := by
  obtain ⟨⟨gen, port, sent, draws⟩, ⟨status, words⟩, ht, hsent, hport, hstatus, -, herr⟩ := accept_answer c s
  obtain ⟨hwords, hgen, hdraws⟩ := herr (hstatus ▸ h)
  dsimp only at hsent hport hstatus hwords hgen hdraws
  subst hsent hport hstatus hwords hgen hdraws
  exact ht

/-- A reserved bit that is set ends decode, whatever the operand words (R59). -/
theorem decode_of_rsvd_ne {c : Command} (h : c.rsvd ≠ 0#29) : decode c = .error .reservedOp := if_pos h

/-- Of the commands that decode selects only a RESTORE without 627 words fails (R96, R113). -/
theorem answerStatus_selectInstr (o : BitVec 3) (D : List Word) :
    answerStatus (.ok (selectInstr o D)) = if o = 0b100#3 ∧ D.length ≠ 627 then .invalidState else .ok := by
  rcases opcode_cases o with rfl | rfl | rfl | rfl | rfl | rfl | rfl | rfl
  · rfl
  · rfl
  · rfl
  · rfl
  · by_cases hD : D.length = 627
    · exact (if_pos hD).trans (if_neg fun h => h.2 hD).symm
    · exact (if_neg hD).trans (if_pos ⟨rfl, hD⟩).symm
  · rfl
  · rfl
  · rfl

/-- Settles O4: decode's checks come in the order of R113, and of the commands they leave only a RESTORE can fail. -/
theorem firstErrorInPriorityOrderIsReported : Obligations.FirstErrorInPriorityOrderIsReported := by
  refine fun W D s => ⟨?_, fun a b => ?_⟩
  case refine_2 =>
    have hrsvd : (0x00000008#32).extractLsb' 3 29 ≠ 0#29 := by decide
    exact accept_of_error (decode_of_rsvd_ne (c := ⟨0x00000008#32, [a, b]⟩) hrsvd) s
  obtain ⟨hrsvd, hd⟩ | ⟨hrsvd, hop, hd⟩ | ⟨hrsvd, hop, hcount, hd⟩ | ⟨hrsvd, hop, hcount, hd⟩ := decode_cases ⟨W, D⟩
  · refine (if_pos hrsvd).mpr ?_
    exact accept_of_error hd s
  · refine (if_neg (not_not.mpr hrsvd)).mpr <| (if_pos hop).mpr ?_
    exact accept_of_error hd s
  · refine (if_neg (not_not.mpr hrsvd)).mpr <| (if_neg hop).mpr <| (if_pos hcount).mpr ?_
    exact accept_of_error hd s
  · refine (if_neg (not_not.mpr hrsvd)).mpr <| (if_neg hop).mpr <| (if_neg hcount).mpr ?_
    have hstatus : answerStatus (decode ⟨W, D⟩) =
        if W.extractLsb' 0 3 = 0b100#3 ∧ D.length ≠ 627 then .invalidState else .ok :=
      (congrArg answerStatus hd).trans (answerStatus_selectInstr _ _)
    split
    case isTrue hrestore =>
      rw [if_pos hrestore] at hstatus
      exact hstatus ▸ accept_of_error_status (by rw [hstatus]; decide) s
    case isFalse hfits =>
      rw [if_neg hfits] at hstatus
      obtain ⟨t, ⟨status, words⟩, ht, hsent, -, hanswer, -⟩ := accept_answer ⟨W, D⟩ s
      obtain rfl : status = .ok := hanswer.trans hstatus
      exact ⟨t, words, ht, hsent⟩

/-- Settles O6: the error response is all the failed command leaves, and no command reads the responses sent. -/
theorem errorsAreNotSticky : Obligations.ErrorsAreNotSticky := by
  intro c s t r hc hsent hr
  have hstatus : r.status = answerStatus (decode c) := status_of_accept hc hsent
  have hfails : answerStatus (decode c) ≠ .ok := hstatus ▸ hr
  obtain rfl : t = s.raise (answerStatus (decode c)) :=
    Host.Outcome.next.inj (hc.symm.trans (accept_of_error_status hfails s))
  obtain rfl : ⟨answerStatus (decode c), []⟩ = r := by simpa using hsent
  refine ⟨rfl, rfl, rfl, accept_of_error_status hfails _, fun cs => ?_⟩
  obtain ⟨g, d, rs, -, hcs⟩ := acceptAll_frame cs s.gen s.draws
  exact ⟨rs, _, hcs s.port s.sent, rfl, hcs s.port _⟩

end Sys2Proof.Machine
end

section
/-! A reset asserted during a command (R114, R127). -/

namespace Sys2Proof.Machine

theorem GenState.reset_mt_getElem (i : Fin 624) : GenState.reset.mt[i] = none :=
  List.getElem_replicate _

/-- Settles O39: the event is handled as the reset alone, whatever command it carries. -/
theorem resetDuringCommandAbandonsIt : Obligations.ResetDuringCommandAbandonsIt :=
  fun _ _ _ hp => ⟨_, step_of_event hp, rfl, rfl, rfl, rfl, GenState.reset_mt_getElem⟩

end Sys2Proof.Machine
end

section
/-! Several instances (R124): what one of them does touches its own place in the system alone. -/

namespace Sys2Proof.Machine

/-- Whatever an instance ends in, every other is left as it was. -/
theorem System.afterOne_frame {n : Nat} {sys x : System n} {g k : Fin n} {o : Host.Outcome State Fault Refusal}
    (h : sys.afterOne g o = .next x) (hne : k ≠ g) : x[k] = sys[k] := by
  cases o with
  | next t => cases h; exact System.set_ne sys hne t
  | fault r => cases h
  | refused r => cases h

/-- Settles O50: each command is answered from its own instance's state and written to its own place, and writes to two
places commute. -/
theorem instancesStepIndependently : Obligations.InstancesStepIndependently := by
  intro n sys g h c d hne
  obtain ⟨t, -, ht, -⟩ := accept_answer c sys[g]
  obtain ⟨u, -, hu, -⟩ := accept_answer d sys[h]
  have hother : (sys.set g t)[h] = sys[h] := System.set_ne sys hne.symm t
  have hother' : (sys.set h u)[g] = sys[g] := System.set_ne sys hne u
  refine ⟨sys.set g t, sys.set h u, (sys.set g t).set h u, System.acceptOne_next ht, ?_,
    fun k hk => System.set_ne sys hk t, System.acceptOne_next hu, System.acceptOne_next (hother ▸ hu), ?_,
    fun x hx k hk => System.afterOne_frame hx hk⟩
  · rw [System.set_self, ht]
  · rw [System.acceptOne_next (hother' ▸ ht)]
    exact congrArg _ (Vector.set_comm _ _ (Fin.val_ne_of_ne hne.symm))

end Sys2Proof.Machine
end

section
/-! Reset out of every state, and lazy seeding: a block out of reset is answered as one that took SEEDDEF (R74, R126,
R130). -/

namespace Sys2Proof.Machine

theorem exec_pos_of_zero {s : State} (h : s.gen.pos = 0#64) : exec .pos s = .next (s.respond .ok [0#32, 0#32]) := by
  rw [exec_pos, h]
  rfl

/-- The first draw after SEEDDEF ends in the state that the first draw out of reset does (`exec_next_of_sentinel`). -/
theorem exec_next_after_seedDef {t : State} (h : t.gen = ⟨written (seedInit defaultSeed), 624#32, 0#64⟩) :
    exec .next t = .next { t with
      gen := ⟨written (twist (seedInit defaultSeed)), 1#32, 1#64⟩,
      sent := t.sent ++ [⟨.ok, [temper (twist (seedInit defaultSeed))[0]]⟩] } := by
  rw [exec_next_of_exhausted (A := seedInit defaultSeed) (by rw [h]) (by simp [h]) (by simp [h]), h]
  rfl

/-- Position reads keep a block out of reset and one after SEEDDEF apart and both at position 0; the first draw makes
their states one, and from there on the same commands are answered alike. -/
theorem acceptAll_alike_of_reset_and_seedDef {cs : List Command} (hcs : drawsAndReads cs) {s t : State}
    (hs : s.gen = GenState.reset) (ht : t.gen = ⟨written (seedInit defaultSeed), 624#32, 0#64⟩) :
    ∃ rs x y, acceptAll cs s = .next x ∧ acceptAll cs t = .next y ∧
      x.sent = s.sent ++ rs ∧ y.sent = t.sent ++ rs ∧ (encode .next ∈ cs → x.gen = y.gen) := by
  induction cs generalizing s t with
  | nil => exact ⟨[], s, t, rfl, rfl, by simp, by simp, nofun⟩
  | cons c cs ih =>
    rcases hcs c (by simp) with rfl | rfl
    · obtain ⟨g, rs, -, -, hrest⟩ := acceptAll_written cs
        (γ := ⟨written (twist (seedInit defaultSeed)), 1#32, 1#64⟩) (GenState.allWritten_of_written rfl)
      have hidx : s.gen.idx = 625#32 := congrArg GenState.idx hs
      have hnext := (accept_of_ok (decode_encode .next) s).trans (exec_next_of_sentinel hidx)
      have hnext' := (accept_of_ok (decode_encode .next) t).trans (exec_next_after_seedDef ht)
      exact ⟨_ :: rs, _, _, (acceptAll_cons hnext cs).trans (hrest _ _ _),
        (acceptAll_cons hnext' cs).trans (hrest _ _ _), List.append_assoc _ _ _, List.append_assoc _ _ _,
        fun _ => rfl⟩
    · have hread := (accept_of_ok (decode_encode .pos) s).trans (exec_pos_of_zero (congrArg GenState.pos hs))
      have hread' := (accept_of_ok (decode_encode .pos) t).trans (exec_pos_of_zero (congrArg GenState.pos ht))
      obtain ⟨rs, x, y, hx, hy, hxs, hys, hgen⟩ := ih (fun d hd => hcs d (List.mem_cons_of_mem _ hd))
        (s := s.respond .ok [0#32, 0#32]) (t := t.respond .ok [0#32, 0#32]) hs ht
      have hne : encode .next ≠ encode .pos := by decide
      exact ⟨_ :: rs, x, y, (acceptAll_cons hread cs).trans hx, (acceptAll_cons hread' cs).trans hy,
        hxs.trans (List.append_assoc _ _ _), hys.trans (List.append_assoc _ _ _),
        fun hmem => hgen (List.mem_of_ne_of_mem hne hmem)⟩

/-- Settles O48: the two states SEEDDEF and reset leave, and what draws and position reads make of them. -/
theorem resetThenNextEqualsSeedDefThenNext : Obligations.ResetThenNextEqualsSeedDefThenNext := by
  intro s r hs
  refine ⟨_, rfl, congrArg GenState.idx hs, fun i => ?_, rfl, rfl,
    ⟨_, _, exec_pos_of_zero (congrArg GenState.pos hs), rfl, exec_pos_of_zero rfl, rfl⟩,
    fun cs hcs => acceptAll_alike_of_reset_and_seedDef hcs hs rfl⟩
  rw [hs]
  exact GenState.reset_mt_getElem i

/-- Settles O40: the event is handled as the reset, which overwrites the architectural state alone. -/
theorem resetLeavesTheUnseededState : Obligations.ResetLeavesTheUnseededState :=
  fun _ _ hp => ⟨_, step_of_event hp, rfl, rfl, rfl, rfl, rfl, GenState.reset_mt_getElem⟩

end Sys2Proof.Machine
end

section
/-! When the block stops: on an overlapping command, and on nothing else (R109, R134, R138). -/

namespace Sys2Proof.Machine

/-- Settles O41: the fault is how an overlap is handled, in every state. -/
theorem overlapIsAProtocolViolation : Obligations.OverlapIsAProtocolViolation := fun _ _ _ _ hp => step_of_event hp

/-- Every event but an overlap is answered with a next state, and leaves the events behind it at the port. -/
theorem handle_of_keepsProtocol {e : PortEvent} (he : e.keepsProtocol = true) (s : State) :
    ∃ t, handle e s = .next t ∧ t.port = s.port := by
  cases e with
  | command c =>
    obtain ⟨t, -, ht, -, hport, -⟩ := accept_answer c s
    exact ⟨t, ht, hport⟩
  | overlap c c' => cases he
  | reset => exact ⟨_, rfl, rfl⟩
  | resetDuring c => exact ⟨_, rfl, rfl⟩

/-- All a step can end in: a next state with the head of the port taken, or the fault of an overlap at that head. -/
theorem step_cases (s : State) :
    (∃ t, step s = .next t ∧ t.port = s.port.tail) ∨
    ∃ c c' rest, s.port = .overlap c c' :: rest ∧ step s = .fault .protocolViolation := by
  cases hp : s.port with
  | nil => exact .inl ⟨s, step_of_idle hp, hp⟩
  | cons e rest =>
    cases he : e.keepsProtocol with
    | true =>
      rw [step_of_event hp]
      exact .inl (handle_of_keepsProtocol he _)
    | false =>
      obtain ⟨c, c', rfl⟩ : ∃ c c', e = .overlap c c' := by
        cases e with
        | overlap c c' => exact ⟨c, c', rfl⟩
        | _ => cases he
      exact .inr ⟨c, c', rest, rfl, overlapIsAProtocolViolation s c c' rest hp⟩

/-- Settles O42: of the two things a step can end in, neither is a refusal, the fault is an overlap's, and a host that
keeps the protocol presents no overlap. -/
theorem blockNeverStopsUnderTheProtocol : Obligations.BlockNeverStopsUnderTheProtocol := by
  refine ⟨fun s r h => ?_, fun s f h => ?_, fun s hkeeps => ?_⟩
  · obtain ⟨t, ht, -⟩ | ⟨_, _, _, -, hfault⟩ := step_cases s
    · cases h.symm.trans ht
    · cases h.symm.trans hfault
  · obtain ⟨t, ht, -⟩ | ⟨c, c', rest, hp, -⟩ := step_cases s
    · cases h.symm.trans ht
    · exact ⟨c, c', rest, hp⟩
  · obtain ⟨t, ht, hport⟩ | ⟨c, c', rest, hp, -⟩ := step_cases s
    · rw [State.hostKeepsProtocol, List.all_eq_true] at hkeeps
      refine ⟨t, ht, ?_⟩
      rw [State.hostKeepsProtocol, hport, List.all_eq_true]
      exact fun e he => hkeeps e (List.mem_of_mem_tail he)
    · rw [State.hostKeepsProtocol, hp] at hkeeps
      cases hkeeps

end Sys2Proof.Machine
end

section
/-! The block at reset, and the block left alone (R122, R126). -/

namespace Sys2Proof.Machine

/-- Settles O47: the reset state is the invariant's own second case. -/
theorem resetMeetsTheInvariant : Obligations.ResetMeetsTheInvariant :=
  ⟨.inr rfl, rfl, rfl, GenState.reset_mt_getElem, rfl, rfl⟩

/-- Settles O37: the step's case of no event. -/
theorem idleBlockHoldsItsState : Obligations.IdleBlockHoldsItsState := fun _ => step_of_idle

end Sys2Proof.Machine
end

section
/-! Runs of the machine and sequences of commands (R47, R133). -/

namespace Sys2Proof.Machine

/-- A run that finds a command at the head of the port goes on from the state the command leaves. -/
theorem core_run_of_command {s t : State} {c : Command} {rest : List PortEvent} (hp : s.port = .command c :: rest)
    (h : accept c { s with port := rest } = .next t) (k : Nat) :
    Host.Core.run core (k + 1) s = Host.Core.run core k t :=
  core_run_succ ((step_of_command hp).trans h) k

/-- Settles O38, by induction on the commands: each leaves the events behind it at the port for later steps. -/
theorem stepsTakeThePortInOrder : Obligations.StepsTakeThePortInOrder := by
  intro cs rest s
  induction cs generalizing s with
  | nil => rfl
  | cons c cs ih =>
    obtain ⟨g, d, r, h⟩ := accept_frame c s.gen s.draws
    have hfirst := core_run_of_command (s := { s with port := (c :: cs).map .command ++ rest }) rfl
      (h (cs.map .command ++ rest) s.sent) cs.length
    have hrest := ih ⟨g, rest, s.sent ++ [r], d⟩
    rw [acceptAll_cons (h rest s.sent)]
    exact hfirst.trans hrest

end Sys2Proof.Machine
end

section
/-! The free values that reads of unwritten words return (R36, R94): those of one read, and those of the next. -/

namespace Sys2Proof.Machine

/-- A read of unwritten words returns consecutive free values of one source. -/
theorem readWords_replicate_none_getElem? {n i : Nat} (hi : i < n) (d : Draws) :
    (readWords (List.replicate n none) d)[i]? = some (Config.freeWord d.source (d.taken + i)) := by
  induction n generalizing i d with
  | zero => exact absurd hi i.not_lt_zero
  | succ n ih =>
    cases i with
    | zero => rfl
    | succ i =>
      have htail := ih (Nat.lt_of_succ_lt_succ hi) (d.advance 1)
      rw [Draws.advance_source, Draws.advance_taken, Nat.add_right_comm] at htail
      exact htail

theorem unwrittenCount_replicate_none (n : Nat) : unwrittenCount (List.replicate n none) = n := by
  induction n with
  | zero => rfl
  | succ n ih => exact congrArg (· + 1) ih

theorem GenState.reset_mt_toList : GenState.reset.mt.toList = List.replicate 624 none := rfl

/-- The words of the image a SAVE of a block out of reset answers. -/
theorem State.savedImage_getElem?_of_reset {s : State} (h : s.gen = GenState.reset) (i : Fin 624) :
    s.savedImage[i.val]? = some (Config.freeWord s.draws.source (s.draws.taken + i.val)) := by
  rw [State.savedImage, image_getElem?_array _ _ _ i.isLt, ← Vector.getElem?_toList, State.readArray_toList, h,
    GenState.reset_mt_toList]
  exact readWords_replicate_none_getElem? i.isLt _

/-- A SAVE of a block out of reset leaves it unwritten and takes one draw for each word of the array. -/
theorem exec_save_of_reset {s : State} (h : s.gen = GenState.reset) : ∃ t,
    exec .save s = .next t ∧ t.gen = GenState.reset ∧ t.sent = s.sent ++ [⟨.ok, s.savedImage⟩] ∧
    t.draws = s.draws.advance 624 := by
  refine ⟨_, exec_save s, h, rfl, ?_⟩
  calc s.draws.advance (unwrittenCount s.gen.mt.toList)
      = s.draws.advance (unwrittenCount (List.replicate 624 none)) := by rw [h, GenState.reset_mt_toList]
    _ = s.draws.advance 624 := by rw [unwrittenCount_replicate_none]

/-- Settles O28: the first SAVE leaves a block out of reset 624 draws further, and the second is of that block. -/
theorem unwrittenReadsAreFreshFreeValues : Obligations.UnwrittenReadsAreFreshFreeValues := by
  intro s hs
  obtain ⟨t, hst, ht, htsent, hdraws⟩ := exec_save_of_reset hs
  obtain ⟨u, htu, -, husent, -⟩ := exec_save_of_reset ht
  refine ⟨t, u, s.savedImage, t.savedImage, hst, htu, htsent, husent, fun i => ⟨?_, ?_⟩⟩
  · exact State.savedImage_getElem?_of_reset hs i
  · rw [State.savedImage_getElem?_of_reset ht, hdraws, Draws.advance_source, Draws.advance_taken]

end Sys2Proof.Machine
end

section
/-! The sources of free values in a system (R31, R36, R94): one per instance out of reset, and none ever changed. -/

namespace Sys2Proof.Machine

theorem handle_keeps_source {e : PortEvent} {s t : State} (h : handle e s = .next t) :
    t.draws.source = s.draws.source := by
  cases e with
  | command c => exact accept_keeps_source h
  | overlap c c' => cases h
  | reset => cases h; rfl
  | resetDuring c => cases h; rfl

theorem step_keeps_source {s t : State} (h : step s = .next t) : t.draws.source = s.draws.source := by
  cases hp : s.port with
  | nil => rw [step_of_idle hp] at h; cases h; rfl
  | cons e rest => rw [step_of_event hp] at h; exact handle_keeps_source (s := { s with port := rest }) h

/-- A system goes on only where its instance does, and holds there what that instance ended in. -/
theorem System.afterOne_self {n : Nat} {sys x : System n} {g : Fin n} {o : Host.Outcome State Fault Refusal}
    (h : sys.afterOne g o = .next x) : o = .next x[g] := by
  cases o with
  | next t => cases h; rw [System.set_self]
  | fault r => cases h
  | refused r => cases h

theorem System.reset_getElem {n : Nat} (g : Fin n) :
    (System.reset n)[g] = { State.reset with draws := ⟨g.val, 0⟩ } :=
  Vector.getElem_ofFn g.isLt

/-- Settles O53: an instance out of the system's reset is a block out of reset that reads from its own source, and a
step keeps the sources of its instance and of the others. -/
theorem instancesReadTheirOwnFreeValues : Obligations.InstancesReadTheirOwnFreeValues := by
  refine ⟨fun n g => ?_, fun n sys sys' g h k => ?_⟩
  · have hreset : (System.reset n)[g].gen = GenState.reset := congrArg State.gen (System.reset_getElem g)
    obtain ⟨t, hsave, -, htsent, -⟩ := exec_save_of_reset hreset
    have haccept := (accept_of_ok (decode_encode .save) (System.reset n)[g]).trans hsave
    refine ⟨hreset, _, (System.reset n)[g].savedImage, System.acceptOne_next haccept, ?_, fun i => ?_⟩
    · rw [System.set_self, htsent, System.reset_getElem]
      rfl
    · rw [State.savedImage_getElem?_of_reset hreset, System.reset_getElem, Nat.zero_add]
  · by_cases hk : k = g
    · subst hk
      exact step_keeps_source (System.afterOne_self h)
    · rw [System.afterOne_frame h hk]

end Sys2Proof.Machine
end
